-- ==== Sys2Proof/Word.lean ====
section
/-! DEFINITION. The fixed-width words of the hardware (00_scope.md R11, R12). -/

namespace Sys2Proof

/-- A command word on the command port: one indivisible 32-bit quantity (30_encoding.md R71, 20_memory.md R55). -/
abbrev Word := BitVec 32

/-- The `VALUE` field of a command word (30_encoding.md R71, R73). -/
abbrev Value := BitVec 16

/-- The `CH` field of a command word: 0..3, of which 3 names no channel (30_encoding.md R73, 20_memory.md R51). -/
abbrev ChannelField := BitVec 2

/-- One sample as the response port carries it: 16 bits, two's complement (42_mixer_quantizer.md R133). -/
abbrev Sample := BitVec 16

/-- The number of a tone channel: 0, 1 or 2 (10_state.md R38). -/
abbrev ChannelId := Fin 3

end Sys2Proof
end

