-- ==== Sys2Proof/Syntax.lean ====
section
/-! DEFINITION. The four commands, one constructor per row of spec/opcode_table.json (30_encoding.md R70, R72).
RESET is no command word and no row of the table (R79): it is an input of the machine (Machine/State.lean). -/

namespace Sys2Proof

/-- A command with its operands as the word's fields spell them (30_encoding.md R71, R73). A term may be ill-formed (channel
3, mode flags above 3), as the assembler's input may be (R80); WellFormed.lean says which are. -/
inductive Instr where
  /-- `set_period ch, value` (40_tone_channel.md R90). -/
  | setPeriod (ch : ChannelField) (value : Value)
  /-- `set_volume ch, level` (40_tone_channel.md R91). -/
  | setVolume (ch : ChannelField) (level : Value)
  /-- `set_mode ch, flags` (40_tone_channel.md R92). -/
  | setMode (ch : ChannelField) (flags : Value)
  /-- `next_sample` (44_sample_engine.md R151). -/
  | nextSample
deriving DecidableEq, Repr

end Sys2Proof
end

