-- ==== Sys2Proof/WellFormed.lean ====
section
/-! DEFINITION. Which commands are well formed, and the causes of a configuration error (60_exceptions.md R167). -/

namespace Sys2Proof

/-- The causes of `ConfigError` (60_exceptions.md R167): labels of the model, not visible at the port (30_encoding.md R78).
`ConfigError` does not stop the machine (R166, R171). -/
inductive Cause where
  /-- `CH = 3` in `SET_PERIOD`, `SET_VOLUME` or `SET_MODE`. -/
  | badChannel
  /-- `VALUE > 3` in `SET_MODE`. -/
  | badMode
  /-- Reserved bits set, an unknown opcode, or `NEXT_SAMPLE` with operands. -/
  | badEncoding
deriving DecidableEq, Repr

/-- The cause for which the block rejects a command, if any: the channel is tested before the mode flags
(60_exceptions.md R170). -/
def Instr.invalidity : Instr → Option Cause
  | .setPeriod ch _ => if ch = 3#2 then some .badChannel else none
  | .setVolume ch _ => if ch = 3#2 then some .badChannel else none
  | .setMode ch flags =>
    if ch = 3#2 then some .badChannel else if 3 < flags.toNat then some .badMode else none
  | .nextSample => none

/-- A command the block accepts: its operands are in the ranges of 40_tone_channel.md R90, R91, R92. -/
abbrev Instr.WellFormed (i : Instr) : Prop := i.invalidity = none

end Sys2Proof
end

