-- ==== Sys2Proof/Decode.lean ====
section
/-! DEFINITION. The decoder of command words (30_encoding.md R74), total on every 32-bit word, and the encoder
(R71, R72, R80). -/

namespace Sys2Proof

/-- `w[hi:lo]` as the unsigned integer it denotes (00_scope.md R11); `len` is `hi - lo + 1`. -/
abbrev field (w : Word) (lo len : Nat) : BitVec len := w.extractLsb' lo len

/-- `OP = w[31:28]` (30_encoding.md R71). -/
def opField (w : Word) : BitVec 4 := field w 28 4

/-- `RZ1 = w[27:26]`, reserved, must be 0 (30_encoding.md R71, R75). -/
def rz1Field (w : Word) : BitVec 2 := field w 26 2

/-- `CH = w[25:24]` (30_encoding.md R71). -/
def chField (w : Word) : ChannelField := field w 24 2

/-- `RZ2 = w[23:16]`, reserved, must be 0 (30_encoding.md R71, R75). -/
def rz2Field (w : Word) : BitVec 8 := field w 16 8

/-- `VALUE = w[15:0]` (30_encoding.md R71). -/
def valueField (w : Word) : Value := field w 0 16

/-- The decoder, step by step in the order of 30_encoding.md R74; the first step that matches wins, which is also the
priority of the causes (60_exceptions.md R170). -/
def decode (w : Word) : Except Cause Instr :=
  let op := opField w
  let ch := chField w
  let value := valueField w
  if rz1Field w ≠ 0 ∨ rz2Field w ≠ 0 then .error .badEncoding
  else if op ≠ 1 ∧ op ≠ 2 ∧ op ≠ 3 ∧ op ≠ 4 then .error .badEncoding
  else if op = 4 ∧ (ch ≠ 0 ∨ value ≠ 0) then .error .badEncoding
  else if op = 4 then .ok .nextSample
  else if ch = 3 then .error .badChannel
  else if op = 3 ∧ 3 < value.toNat then .error .badMode
  else if op = 1 then .ok (.setPeriod ch value)
  else if op = 2 then .ok (.setVolume ch value)
  else .ok (.setMode ch value)

/-- The instruction the decoder reads from a table word of `nbits` bits (the bits above are 0), or none where it rejects it.
A command word has 32 bits and no byte order (30_encoding.md R71, 20_memory.md R55); no longer instruction exists. -/
def decodeTableWord (nbits w : Nat) : Option Instr :=
  if nbits ≤ 32 then (decode (BitVec.ofNat 32 (w % 2 ^ nbits))).toOption else none

/-- A command word from its fields, the reserved ones 0 (30_encoding.md R71). -/
def commandWord (op : BitVec 4) (ch : ChannelField) (value : Value) : Word :=
  op ++ 0#2 ++ ch ++ 0#8 ++ value

/-- The encoder: the words of 40_tone_channel.md R90, R91, R92 and 44_sample_engine.md R151. Like the assembler of
30_encoding.md R80 it encodes ill-formed operands as they are written. -/
def encode : Instr → Word
  | .setPeriod ch value => commandWord 1 ch value
  | .setVolume ch level => commandWord 2 ch level
  | .setMode ch flags => commandWord 3 ch flags
  | .nextSample => commandWord 4 0 0

end Sys2Proof
end

