-- ==== Sys2Proof/Config.lean ====
section
/-! DEFINITION. The configuration record `Cfg` (00_scope.md R8): what is fixed for the life of one instance (R10). The values
computed from it (`PERIOD_MAX`, `MIN_PERIOD`, `SCALE`, …), the admissibility of R9 and the default values are in Machine/Parameters.lean. -/

namespace Sys2Proof

/-- `GATE_RULE`: how TONE and NOISE combine on one channel (42_mixer_quantizer.md R126, R127). -/
inductive GateRule where
  | or
  | andOr
deriving DecidableEq, Repr

/-- The parameters of 00_scope.md R8 whose range there has more than one value. Their legal ranges are in
`Machine.Admissible`. `N_CH`, `VOL_MAX`, `SAMPLE_BITS`, `NOISE_BITS` and the shift direction have one value in R8 and are no
fields; `PERIOD_MAX`, `MIN_PERIOD`, `MAX_SUM` and `SCALE` are derived there (assumption log 10). -/
structure Cfg where
  /-- `CLOCK_RATE`, ticks per second. -/
  clockRate : Nat
  /-- `SAMPLE_RATE`, samples per second. -/
  sampleRate : Nat
  /-- `PERIOD_BITS`, the width of a period register. -/
  periodBits : Nat
  /-- `LEVEL[0..15]`, the amplitude table. -/
  level : Vector Nat 16
  /-- `GATE_RULE`. -/
  gateRule : GateRule
  /-- `NOISE_PERIOD`, the noise clock divider. -/
  noisePeriod : Nat
  /-- `NOISE_SEED`, reset value and reseed value of the noise register. -/
  noiseSeed : BitVec 16
  /-- `NOISE_TAP_A`. -/
  noiseTapA : Fin 16
  /-- `NOISE_TAP_B`. -/
  noiseTapB : Fin 16
  /-- `ACC_RESET`, reset value of the tick accumulator. -/
  accReset : Nat
deriving DecidableEq, Repr

/-- A free value: what SET_PERIOD stores for an operand above `PERIOD_MAX`, which a register of fewer than 16 bits cannot hold
and 40_tone_channel.md R90 does not state ("every 16-bit value is at most `PERIOD_MAX`"). It is read modulo the legal values
of the register. A function of the configuration and the operands alone, as 20_memory.md R54 and 44_sample_engine.md R159
demand (assumption log 18). -/
opaque Config.unstatedPeriod (cfg : Cfg) (ch : ChannelField) (value : Value) : Nat

end Sys2Proof
end

