-- ==== Sys2Proof/Machine/Parameters.lean ====
section
/-! DEFINITION. The derived parameters of 00_scope.md R8, the admissibility of R9, and the default configuration. -/

namespace Sys2Proof.Machine

/-- `PERIOD_MAX = 2^PERIOD_BITS - 1` (00_scope.md R8). -/
def periodMax (cfg : Cfg) : Nat := 2 ^ cfg.periodBits - 1

/-- `VOL_MAX` (00_scope.md R8). -/
def volMax : Nat := 15

/-- `2^(SAMPLE_BITS-1) - 1` with `SAMPLE_BITS = 16`: the largest sample (42_mixer_quantizer.md R132). -/
def sampleMax : Nat := 32767

/-- `MIN_PERIOD = ceil(CLOCK_RATE / (2*SAMPLE_RATE))`, in the integer form of 43_rate_converter.md R143. -/
def minPeriod (cfg : Cfg) : Nat :=
  (cfg.clockRate + 2 * cfg.sampleRate - 1) / (2 * cfg.sampleRate)

/-- `LEVEL[v]` for a volume register's value (42_mixer_quantizer.md R129). -/
def levelOf (cfg : Cfg) (v : BitVec 4) : Nat := cfg.level[v.toNat]

/-- `MAX_SUM = 3*LEVEL[15]` (42_mixer_quantizer.md R130). -/
def maxSum (cfg : Cfg) : Nat := 3 * levelOf cfg 15#4

/-- `SCALE = floor((2^(SAMPLE_BITS-1) - 1) / MAX_SUM)` (42_mixer_quantizer.md R132). -/
def scale (cfg : Cfg) : Nat := sampleMax / maxSum cfg

/-- An admissible configuration: the conditions of 00_scope.md R9, with the ranges of R8 for the rates, the
period width, the noise divider and the accumulator's reset value.
An inadmissible one has no behaviour at all. -/
def Admissible (cfg : Cfg) : Prop :=
  (1 ≤ cfg.clockRate ∧ cfg.clockRate < 2 ^ 32) ∧
  (1 ≤ cfg.sampleRate ∧ cfg.sampleRate < 2 ^ 32) ∧
  minPeriod cfg ≤ periodMax cfg ∧
  levelOf cfg 0#4 = 0 ∧
  (∀ v : Fin 16, cfg.level[v] ≤ levelOf cfg 15#4) ∧
  1 ≤ levelOf cfg 15#4 ∧
  maxSum cfg * scale cfg ≤ sampleMax ∧
  cfg.noiseSeed ≠ 0#16 ∧
  (1 ≤ cfg.noisePeriod ∧ cfg.noisePeriod ≤ 65535) ∧
  cfg.noiseTapA ≠ cfg.noiseTapB ∧
  1 ≤ cfg.periodBits ∧
  cfg.accReset ≤ cfg.sampleRate - 1
deriving Decidable

/-- The configuration with other rates: what a RESET can change (44_sample_engine.md R155). -/
def withRates (cfg : Cfg) (clockRate sampleRate : Nat) : Cfg :=
  { cfg with clockRate := clockRate, sampleRate := sampleRate }

/-- The default table `LEVEL[v] = v` (42_mixer_quantizer.md R129). -/
def defaultLevel : Vector Nat 16 := #v[0, 1, 2, 3, 4, 5, 6, 7, 8, 9, 10, 11, 12, 13, 14, 15]

/-- The default parameters of 00_scope.md R8 at the given rates. The rates themselves are OPEN: the spec gives them no
default. -/
def defaultsAt (clockRate sampleRate : Nat) : Cfg where
  clockRate := clockRate
  sampleRate := sampleRate
  periodBits := 16
  level := defaultLevel
  gateRule := .or
  noisePeriod := 16
  noiseSeed := 0x0001#16
  noiseTapA := 0
  noiseTapB := 7
  accReset := 0

/-- The configuration of `State.reset`. DESIGN CHOICE (log 2), unsafe: the rates 2 000 000 and 48 000 are those of the spec's
examples; R8 leaves them open. -/
def defaultCfg : Cfg := defaultsAt 2000000 48000

end Sys2Proof.Machine
end

