-- ==== Sys2Proof/Machine/Registers.lean ====
section
/-! DEFINITION. The registers of the block (10_state.md R20; 181 bits at the default `PERIOD_BITS`), and the RESET that loads them (44_sample_engine.md
R155). -/

namespace Sys2Proof.Machine

/-- The five registers of one tone channel (10_state.md R22 to R26, R38). The two whose width is the parameter `PERIOD_BITS`
hold an exact number; that it fits is I1 and I2 of R34, and nothing wraps (00_scope.md R12; assumption log 17). -/
structure Channel where
  /-- `period[i]`, `PERIOD_BITS` bits: ticks between two toggles. -/
  period : Nat
  /-- `counter[i]`, `PERIOD_BITS` bits: the next toggle is on the `(counter+1)`-th tick from now. -/
  counter : Nat
  /-- `output_bit[i]`: the level of the square wave. -/
  outputBit : Bool
  /-- `volume[i]`: an index into the amplitude table. -/
  volume : BitVec 4
  /-- `mode[i]`: bit 0 enables TONE, bit 1 enables NOISE. -/
  mode : BitVec 2
deriving DecidableEq, Repr

/-- The complete state of one instance of the block (10_state.md R20): three channels, the noise generator's two registers
(R27, R28) and the rate converter's one (R30). -/
structure Regs where
  channels : Vector Channel 3
  /-- `lfsr`. -/
  lfsr : BitVec 16
  /-- `noise_counter`. -/
  noiseCounter : BitVec 16
  /-- `tick_acc`. -/
  tickAcc : BitVec 32
deriving DecidableEq, Repr

/-- One tone channel after RESET (10_state.md R33). -/
def resetChannel (cfg : Cfg) : Channel where
  period := minPeriod cfg
  counter := 0
  outputBit := false
  volume := 0
  mode := 0

/-- The registers after RESET (10_state.md R33, 44_sample_engine.md R155); `tick_acc` is `ACC_RESET` (10_state.md R30), 0 by
default. -/
def resetRegs (cfg : Cfg) : Regs where
  channels := Vector.replicate 3 (resetChannel cfg)
  lfsr := cfg.noiseSeed
  noiseCounter := 0
  tickAcc := BitVec.ofNat 32 cfg.accReset

/-- The registers of channel `i` (10_state.md R38). -/
def Regs.channel (r : Regs) (i : ChannelId) : Channel := r.channels[i]

/-- The registers with those of channel `i` replaced, and no other channel touched (10_state.md R38). -/
def Regs.setChannel (r : Regs) (i : ChannelId) (c : Channel) : Regs :=
  { r with channels := r.channels.set i c }

end Sys2Proof.Machine
end

