-- ==== Sys2Proof/Machine/State.lean ====
section
/-! DEFINITION. What a state of the machine is: the block's registers, its configuration, and its two ports; the reasons a
step can stop; the state after reset. -/

namespace Sys2Proof.Machine

/-- The `status` bit of a response (20_memory.md R52, 30_encoding.md R78). -/
inductive Status where
  | ok
  | configError
deriving DecidableEq, Repr

/-- The response to one command word (30_encoding.md R78, 44_sample_engine.md R158). -/
structure Response where
  status : Status
  sample : Sample
deriving DecidableEq, Repr

/-- What the host can present to the block (20_memory.md R52). -/
inductive Input where
  /-- One 32-bit word on the command port. -/
  | command (w : Word)
  /-- The `rst` input, with the two static rate inputs it samples (30_encoding.md R79, 44_sample_engine.md R155). -/
  | reset (clockRate sampleRate : Nat)
deriving DecidableEq, Repr

/-- Why the machine stops with a fault. -/
inductive Fault where
  /-- Raised by NEXT_SAMPLE where the `while` loop of 40_tone_channel.md R94 would run for ever: a channel whose `period`
  register is 0 underflows. No reachable state has one (10_state.md R22, R34 I1). Safe: the model stops where the spec's
  pseudocode gives no result (assumption log 8). -/
  | advanceNeverEnds
deriving DecidableEq, Repr

/-- Why the machine refuses a step. -/
inductive Refusal where
  /-- No meaning yet for the instruction with this mnemonic. No arm of `exec` answers it. Safe: nothing runs. -/
  | notModelled (mnemonic : String)
  /-- Every command, and a RESET to such rates, under a configuration that breaks 00_scope.md R9: "A model gives an
  inadmissible configuration no behaviour at all: it refuses it". Safe: nothing runs (assumption log 7). -/
  | inadmissibleConfiguration
deriving DecidableEq, Repr

/-- The state of the machine. The block's own storage is `regs` and nothing else (10_state.md R20, R31). -/
structure State where
  /-- The configuration in force, sampled at the last RESET: an argument of the spec's step function, no register
  (00_scope.md R10, 70_reset_and_hazards.md R186; assumption log 1). -/
  cfg : Cfg
  /-- The registers of the block. -/
  regs : Regs
  /-- What the host will present, oldest first (20_memory.md R57; assumption log 3). -/
  inputs : List Input
  /-- What the response port shows after the latest step: the response to its command, or nothing (assumption log 4). -/
  response : Option Response
deriving DecidableEq, Repr

/-- The machine right after RESET under a configuration, with nothing presented yet (44_sample_engine.md R155: RESET
"produces no response and no sample"). -/
def State.resetTo (cfg : Cfg) : State where
  cfg := cfg
  regs := resetRegs cfg
  inputs := []
  response := none

/-- The machine right after RESET, under the configuration of assumption log 2. -/
def State.reset : State := State.resetTo defaultCfg

end Sys2Proof.Machine
end

