-- ==== Sys2Proof/Machine/Flags.lean ====
section
/-! DEFINITION. The one-bit values of the block (10_state.md R35): the enable bits of a mode, the noise bit, and the toggled
output bit. There are no condition codes. -/

namespace Sys2Proof.Machine

/-- `tone_en = mode[0]` (10_state.md R26). -/
def toneEnabled (mode : BitVec 2) : Bool := mode.getLsbD 0

/-- `noise_en = mode[1]` (10_state.md R26). -/
def noiseEnabled (mode : BitVec 2) : Bool := mode.getLsbD 1

/-- `noise_bit = lfsr[0]`, in every state (10_state.md R29, 41_noise_generator.md R113). -/
def noiseBit (lfsr : BitVec 16) : Bool := lfsr.getLsbD 0

/-- An output bit after `k` toggles: `output_bit xor (k mod 2)` (40_tone_channel.md R94). -/
def toggled (bit : Bool) (k : Nat) : Bool := bit ^^ (k % 2 == 1)

/-- The `status` line of the response port: 0 for OK, 1 for CONFIG_ERROR (20_memory.md R52). -/
def statusBit : Status → BitVec 1
  | .ok => 0
  | .configError => 1

/-- The model's number for a cause (60_exceptions.md R167). It has no hardware existence. -/
def causeCode : Cause → Nat
  | .badChannel => 1
  | .badMode => 2
  | .badEncoding => 3

end Sys2Proof.Machine
end

