-- ==== Sys2Proof/Machine/Ops.lean ====
section
/-! DEFINITION. The operations the meanings share: giving a response, raising ConfigError, writing one channel's register,
the count-down loop of both generators, and what each input of the machine does to the ports. -/

namespace Sys2Proof.Machine

/-- The three outcomes of a step of this machine. -/
abbrev Result := Host.Outcome State Fault Refusal

/-- The state with `respond(status, sample)` on the response port (00_scope.md R13). -/
def respond (status : Status) (sample : Sample) (s : State) : State :=
  { s with response := some ⟨status, sample⟩ }

/-- `raise ConfigError(cause)`: no register is written, the response is `(CONFIG_ERROR, 0)`, and nothing is saved, the cause
included (60_exceptions.md R166, R167). There is no return from it (R171). -/
def raiseConfigError (_cause : Cause) (s : State) : State := respond .configError 0 s

/-- The outcome `k`, but for an inadmissible configuration, which has no behaviour (00_scope.md R9). -/
def whenAdmissible (s : State) (k : Result) : Result :=
  if Admissible s.cfg then k else .refused .inadmissibleConfiguration

/-- The state with channel `i` changed by `f`, nothing else. -/
def modifyChannel (i : ChannelId) (f : Channel → Channel) (s : State) : State :=
  { s with regs := s.regs.setChannel i (f (s.regs.channel i)) }

/-- The loop of 40_tone_channel.md R94 and 41_noise_generator.md R112: while the count is strictly below zero (R95), add
`reload` to it (R96) and let `onUnderflow` act once. None where the loop has not ended after `fuel` rounds; with
`fuel` the tick count, that is the case exactly when it never ends (assumption log 9). -/
def countDown {α : Type} (reload : Nat) (onUnderflow : α → α) : (fuel : Nat) → (c : Int) → α → Option (Int × α)
  | 0, c, a => if c < 0 then none else some (c, a)
  | fuel + 1, c, a => if c < 0 then countDown reload onUnderflow fuel (c + reload) (onUnderflow a) else some (c, a)

/-- What the host presents next, and the state in which that input has been taken and the response of the step before it is
gone (20_memory.md R52, R57). -/
def takeInput (s : State) : Option Input × State :=
  match s.inputs with
  | [] => (none, { s with response := none })
  | input :: rest => (some input, { s with inputs := rest, response := none })

/-- The `rst` input: a new instance at the given rates, whatever the old state was; what the host will present is the host's
and stays (44_sample_engine.md R155, 70_reset_and_hazards.md R186). -/
def resetInstance (clockRate sampleRate : Nat) (s : State) : Result :=
  if Admissible (withRates s.cfg clockRate sampleRate) then
    .next { State.resetTo (withRates s.cfg clockRate sampleRate) with inputs := s.inputs }
  else .refused .inadmissibleConfiguration

/-- A word the decoder rejects: its execution is `raise ConfigError(cause)` (30_encoding.md R74). -/
def execInvalid (cause : Cause) (s : State) : Result := whenAdmissible s (.next (raiseConfigError cause s))

/-- A step in which the host presents nothing: "the block frozen in its current state" (60_exceptions.md R179). -/
def execIdle (s : State) : Result := whenAdmissible s (.next s)

/-- The state in which the host presents `input` next (20_memory.md R52). -/
def present (input : Input) (s : State) : State := { s with inputs := input :: s.inputs }

end Sys2Proof.Machine
end

