-- ==== Sys2Proof/Machine/Mixer.lean ====
section
/-! DEFINITION. The mixer and quantizer: pure functions of registers and configuration (42_mixer_quantizer.md R125 to R138). -/

namespace Sys2Proof.Machine

/-- `gate(m, tone_bit, nb)` under the two gate rules; mode none gives 0 under both (42_mixer_quantizer.md R126, R127,
R128). -/
def gate (rule : GateRule) (mode : BitVec 2) (toneBit nb : Bool) : Bool :=
  let toneEn := toneEnabled mode
  let noiseEn := noiseEnabled mode
  match rule with
  | .or => (toneEn && toneBit) || (noiseEn && nb)
  | .andOr => (toneEn || noiseEn) && (!toneEn || toneBit) && (!noiseEn || nb)

/-- What channel `i` adds to the sum: `LEVEL[volume[i]]` if its gate is 1, else 0 (42_mixer_quantizer.md R129). -/
def contribution (cfg : Cfg) (r : Regs) (i : ChannelId) : Nat :=
  let c := r.channel i
  if gate cfg.gateRule c.mode c.outputBit (noiseBit r.lfsr) then levelOf cfg c.volume else 0

/-- The sum of the three contributions (42_mixer_quantizer.md R130). -/
def mixSum (cfg : Cfg) (r : Regs) : Nat := contribution cfg r 0 + contribution cfg r 1 + contribution cfg r 2

/-- `centred2 = 2*sum - MAX_SUM` (42_mixer_quantizer.md R131). -/
def centred2 (cfg : Cfg) (sum : Nat) : Int := 2 * sum - maxSum cfg

/-- `sample = SCALE * centred2`, an integer (42_mixer_quantizer.md R132). -/
def quantize (cfg : Cfg) (sum : Nat) : Int := scale cfg * centred2 cfg sum

/-- `mix()`: the sample as the response port carries it, 16 bits in two's complement (42_mixer_quantizer.md R125, R133). No
clamp: under R9 the integer fits (R136). -/
def mix (cfg : Cfg) (r : Regs) : Sample := BitVec.ofInt 16 (quantize cfg (mixSum cfg r))

end Sys2Proof.Machine
end

