-- ==== Sys2Proof/Machine/NoiseGenerator.lean ====
section
/-! DEFINITION. The noise generator: `lfsr_shift`, `guard`, `noise_advance` (41_noise_generator.md R110 to R112). -/

namespace Sys2Proof.Machine

/-- The shift before the guard: right by one, the XOR of the two taps entering at bit 15 (41_noise_generator.md R110). -/
def lfsrRaw (cfg : Cfg) (r : BitVec 16) : BitVec 16 :=
  BitVec.cons (r.getLsbD cfg.noiseTapA ^^ r.getLsbD cfg.noiseTapB) (r.extractLsb' 1 15)

/-- `guard(raw)`: a zero register is reseeded (41_noise_generator.md R111). -/
def lfsrGuard (cfg : Cfg) (raw : BitVec 16) : BitVec 16 := if raw = 0#16 then cfg.noiseSeed else raw

/-- `lfsr_shift(r)` (41_noise_generator.md R110). -/
def lfsrShift (cfg : Cfg) (r : BitVec 16) : BitVec 16 := lfsrGuard cfg (lfsrRaw cfg r)

/-- `noise_advance(n)` (41_noise_generator.md R112). -/
def noiseAdvance (cfg : Cfg) (n : Nat) (r : Regs) : Option Regs :=
  (countDown cfg.noisePeriod (lfsrShift cfg) n ((r.noiseCounter.toNat : Int) - n) r.lfsr).map fun (c, lfsr) =>
    { r with noiseCounter := BitVec.ofInt 16 c, lfsr := lfsr }

end Sys2Proof.Machine
end

