-- ==== Sys2Proof/Machine/RateConverter.lean ====
section
/-! DEFINITION. The rate converter: `next_tick_count` (43_rate_converter.md R141). -/

namespace Sys2Proof.Machine

/-- `next_tick_count()`: the ticks to advance for the upcoming sample, and the registers with the remainder carried in
`tick_acc` (43_rate_converter.md R141). -/
def nextTickCount (cfg : Cfg) (r : Regs) : Nat × Regs :=
  let t := r.tickAcc.toNat + cfg.clockRate
  (t / cfg.sampleRate, { r with tickAcc := BitVec.ofNat 32 (t % cfg.sampleRate) })

end Sys2Proof.Machine
end

