-- ==== Sys2Proof/Machine/Operands.lean ====
section
/-! DEFINITION. How the operands of a command are read: the channel index and the unsigned `VALUE` field (30_encoding.md R73). -/

namespace Sys2Proof.Machine

/-- The channel a `CH` field selects; 3 selects nothing (20_memory.md R51). -/
def selectChannel (ch : ChannelField) : Option ChannelId :=
  if h : ch.toNat < 3 then some ⟨ch.toNat, h⟩ else none

/-- A number brought into the legal values of a period register, `MIN_PERIOD .. PERIOD_MAX` (10_state.md R22). -/
def intoPeriodRange (cfg : Cfg) (x : Nat) : Nat := minPeriod cfg + x % (periodMax cfg - minPeriod cfg + 1)

/-- The period SET_PERIOD stores: `max(v, MIN_PERIOD)` (40_tone_channel.md R90). R90 has no operand above `PERIOD_MAX`; with a
register of fewer than 16 bits there is one, and some legal value is stored, a free value (assumption log 18). -/
def clampPeriod (cfg : Cfg) (ch : ChannelField) (value : Value) : Nat :=
  if value.toNat ≤ periodMax cfg then max value.toNat (minPeriod cfg)
  else intoPeriodRange cfg (Config.unstatedPeriod cfg ch value)

/-- The level SET_VOLUME stores: `min(v, 15)`, of the whole 16-bit operand (40_tone_channel.md R91, 30_encoding.md R75). -/
def clampVolume (level : Value) : BitVec 4 :=
  BitVec.ofNat 4 (min level.toNat volMax)

/-- The two flag bits SET_MODE stores, or none where the operand is above 3 (40_tone_channel.md R92). -/
def modeFlags (flags : Value) : Option (BitVec 2) :=
  if 3 < flags.toNat then none else some (flags.extractLsb' 0 2)

/-- The named mode flags (30_encoding.md R73, R80). -/
def flagNone : Value := 0
/-- `TONE` is bit 0. -/
def flagTone : Value := 1
/-- `NOISE` is bit 1. -/
def flagNoise : Value := 2

end Sys2Proof.Machine
end

