-- ==== Sys2Proof/Machine/ToneChannel.lean ====
section
/-! DEFINITION. The tone channels: SET_PERIOD, SET_VOLUME, SET_MODE (40_tone_channel.md R90 to R92) and `tone_advance`
(R94). -/

namespace Sys2Proof.Machine

/-- SET_PERIOD ch, v: `period[ch] <- max(v, MIN_PERIOD)`; counter and output bit keep their phase (40_tone_channel.md R90,
R93). -/
def execSetPeriod (ch : ChannelField) (value : Value) (s : State) : Result :=
  whenAdmissible s <|
    match selectChannel ch with
    | none => .next (raiseConfigError .badChannel s)
    | some i => .next (respond .ok 0 (modifyChannel i (fun c => { c with period := clampPeriod s.cfg ch value }) s))

/-- SET_VOLUME ch, v: `volume[ch] <- min(v, 15)` (40_tone_channel.md R91). -/
def execSetVolume (ch : ChannelField) (level : Value) (s : State) : Result :=
  whenAdmissible s <|
    match selectChannel ch with
    | none => .next (raiseConfigError .badChannel s)
    | some i => .next (respond .ok 0 (modifyChannel i (fun c => { c with volume := clampVolume level }) s))

/-- SET_MODE ch, f: `mode[ch] <- v[1:0]`, replacing the old value; the channel is tested before the flags
(40_tone_channel.md R92). -/
def execSetMode (ch : ChannelField) (flags : Value) (s : State) : Result :=
  whenAdmissible s <|
    match selectChannel ch with
    | none => .next (raiseConfigError .badChannel s)
    | some i =>
      match modeFlags flags with
      | none => .next (raiseConfigError .badMode s)
      | some m => .next (respond .ok 0 (modifyChannel i (fun c => { c with mode := m }) s))

/-- The loop of `tone_advance` on one channel's registers: the final count and the number `k` of toggles
(40_tone_channel.md R94). -/
def toneCount (n : Nat) (c : Channel) : Option (Int × Nat) :=
  countDown c.period (· + 1) n ((c.counter : Int) - n) 0

/-- `tone_advance` on one channel's registers (40_tone_channel.md R94). -/
def advanceChannel (n : Nat) (c : Channel) : Option Channel :=
  (toneCount n c).map fun (count, k) =>
    { c with counter := count.toNat, outputBit := toggled c.outputBit k }

/-- `tone_advance(i, n)`, whatever the channel's mode and volume (40_tone_channel.md R94, R103). -/
def toneAdvance (i : ChannelId) (n : Nat) (r : Regs) : Option Regs :=
  (advanceChannel n (r.channel i)).map (r.setChannel i)

end Sys2Proof.Machine
end

