-- ==== Sys2Proof/Machine/SampleEngine.lean ====
section
/-! DEFINITION. The orchestrator: NEXT_SAMPLE (44_sample_engine.md R151). -/

namespace Sys2Proof.Machine

/-- The advances of one decimation step by `n` ticks, in the order of 44_sample_engine.md R152: noise, then channels 0, 1,
2. -/
def advanceAll (cfg : Cfg) (n : Nat) (r : Regs) : Option Regs :=
  (noiseAdvance cfg n r).bind fun r =>
    (toneAdvance 0 n r).bind fun r =>
      (toneAdvance 1 n r).bind fun r =>
        toneAdvance 2 n r

/-- One decimation step: the tick count first, then every generator by that count (44_sample_engine.md R151, R152). None
where a channel's loop never ends. -/
def decimationStep (cfg : Cfg) (r : Regs) : Option Regs :=
  let (n, r) := nextTickCount cfg r
  advanceAll cfg n r

/-- NEXT_SAMPLE: one decimation step, then the mix of the state it left (44_sample_engine.md R151). -/
def execNextSample (s : State) : Result :=
  whenAdmissible s <|
    match decimationStep s.cfg s.regs with
    | none => .fault .advanceNeverEnds
    | some r => .next (respond .ok (mix s.cfg r) { s with regs := r })

end Sys2Proof.Machine
end

