-- ==== Sys2Proof/Machine/Dispatch.lean ====
section
/-! DEFINITION. One arm per constructor of Instr (44_sample_engine.md R150). -/

namespace Sys2Proof.Machine

/-- What a decoded command does to the state (44_sample_engine.md R150). -/
def exec (i : Instr) (s : State) : Host.Outcome State Fault Refusal :=
  match i with
  | .setPeriod ch value => Sys2Proof.Machine.execSetPeriod ch value s
  | .setVolume ch level => Sys2Proof.Machine.execSetVolume ch level s
  | .setMode ch flags => Sys2Proof.Machine.execSetMode ch flags s
  | .nextSample => Sys2Proof.Machine.execNextSample s

end Sys2Proof.Machine
end

