-- ==== Sys2Proof/Machine/Step.lean ====
section
/-! DEFINITION. One step of the machine: the next input the host presents, whole (20_memory.md R57, 00_scope.md R14). -/

namespace Sys2Proof.Machine

/-- The step function (44_sample_engine.md R150): take the next input; a command word is decoded and executed, `rst` makes a
new instance, and with nothing presented the block is frozen. -/
def step (s : State) : Host.Outcome State Fault Refusal :=
  match takeInput s with
  | (none, s) => execIdle s
  | (some (.reset clockRate sampleRate), s) => resetInstance clockRate sampleRate s
  | (some (.command w), s) =>
    match decode w with
    | .error cause => execInvalid cause s
    | .ok i => exec i s

/-- `s` with the command word of `nbits` bits `w` (the bits above are 0) presented next, so that the next step decodes and
runs it. The block fetches nothing: the host presents each word (20_memory.md R57, R61; assumption log 3). -/
def State.withFetchWord (s : State) (nbits w : Nat) : State :=
  present (.command (BitVec.ofNat 32 (w % 2 ^ nbits))) s

end Sys2Proof.Machine
end

