-- ==== Sys2Proof/Safety.lean ====
section
/-! DEFINITION. The terms claims are stated in: the invariant (10_state.md R34), a run of the block (44_sample_engine.md
R150), and the closed form of counting down (40_tone_channel.md R98). -/

namespace Sys2Proof.Machine

/-- The invariants I1 to I6 of 10_state.md R34 on the registers of an instance with configuration `cfg`. -/
def Regs.Inv (cfg : Cfg) (r : Regs) : Prop :=
  (∀ i : ChannelId, minPeriod cfg ≤ (r.channel i).period ∧ (r.channel i).period ≤ periodMax cfg) ∧
  (∀ i : ChannelId, (r.channel i).counter ≤ periodMax cfg - 1) ∧
  (∀ i : ChannelId, (r.channel i).volume.toNat ≤ volMax) ∧
  r.lfsr ≠ 0#16 ∧
  r.noiseCounter.toNat ≤ cfg.noisePeriod - 1 ∧
  r.tickAcc.toNat ≤ cfg.sampleRate - 1
deriving Decidable

/-- The invariant of a state: an admissible configuration (00_scope.md R9) and I1 to I6 (10_state.md R34). It says nothing of
the two ports. -/
def State.Inv (s : State) : Prop := Admissible s.cfg ∧ s.regs.Inv s.cfg
deriving Decidable

/-- A run: the host presents the inputs one after the other, each "applied to the state the previous one left"
(44_sample_engine.md R150). -/
def runInputs : List Input → State → Result
  | [], s => .next s
  | input :: rest, s =>
    match step (present input s) with
    | .next t => runInputs rest t
    | .fault r => .fault r
    | .refused r => .refused r

/-- A run of command words alone. -/
def runWords (words : List Word) (s : State) : Result := runInputs (words.map Input.command) s

/-- The number of underflows when a counter at `c` with reload value `p` is advanced by `n` ticks (40_tone_channel.md R98,
41_noise_generator.md R112). -/
def underflows (c n p : Nat) : Nat := if n ≤ c then 0 else (n - c + p - 1) / p

/-- Where that counter then stands: `c - n + k*p` (40_tone_channel.md R98). -/
def countAfter (c n p : Nat) : Nat := c + underflows c n p * p - n

/-- `f` applied `n` times, as long as it gives a result. -/
def times {α : Type} (f : α → Option α) : Nat → α → Option α
  | 0, a => some a
  | n + 1, a => (f a).bind (times f n)

end Sys2Proof.Machine
end

