-- ==== Sys2Proof/Certificates/Slice0/Obligations.lean ====
section
/-! DEFINITION. The statements for the provers. The first part holds the terms they use beside those of Safety.lean: the
fields of a word by arithmetic, the opcode table's rows, and the step of the block written a second time in closed form. -/

namespace Sys2Proof.Claims
open Sys2Proof.Machine

/-! ### Frames -/

/-- The register values of 10_state.md R33, where `tick_acc` is `ACC_RESET` (R30). -/
def ResetValues (cfg : Cfg) (r : Regs) : Prop :=
  (∀ i : ChannelId, (r.channel i).period = minPeriod cfg ∧ (r.channel i).counter = 0 ∧
    (r.channel i).outputBit = false ∧ (r.channel i).volume = 0 ∧ (r.channel i).mode = 0) ∧
  r.lfsr = cfg.noiseSeed ∧ r.noiseCounter = 0 ∧ r.tickAcc.toNat = cfg.accReset

/-- Nothing but the registers of channel `i` and the response port differs. -/
def SameButChannel (i : ChannelId) (s t : State) : Prop :=
  t.cfg = s.cfg ∧ t.inputs = s.inputs ∧ (∀ j, j ≠ i → t.regs.channel j = s.regs.channel j) ∧
  t.regs.lfsr = s.regs.lfsr ∧ t.regs.noiseCounter = s.regs.noiseCounter ∧ t.regs.tickAcc = s.regs.tickAcc

/-- `raise ConfigError` (60_exceptions.md R166): a next state that differs only in the response `(CONFIG_ERROR, 0)`. -/
def RaisesConfigError (s : State) (o : Result) : Prop :=
  o = .next { s with response := some ⟨.configError, 0⟩ }

/-! ### The fields of a word by arithmetic (30_encoding.md R71), and the table (R72) -/

def opOf (w : Word) : Nat := w.toNat / 2 ^ 28
def rz1Of (w : Word) : Nat := w.toNat / 2 ^ 26 % 4
def chOf (w : Word) : Nat := w.toNat / 2 ^ 24 % 4
def rz2Of (w : Word) : Nat := w.toNat / 2 ^ 16 % 256
def valueOf (w : Word) : Nat := w.toNat % 2 ^ 16

/-- Steps 1 to 3 of 30_encoding.md R74; the row BAD_ENCODING of 60_exceptions.md R167. -/
def BadEncoding (w : Word) : Prop :=
  rz1Of w ≠ 0 ∨ rz2Of w ≠ 0 ∨ ¬ (1 ≤ opOf w ∧ opOf w ≤ 4) ∨ (opOf w = 4 ∧ (chOf w ≠ 0 ∨ valueOf w ≠ 0))

/-- The `match` and `mask` of an instruction's row in the table of 30_encoding.md R72. -/
def tableRow : Instr → Word × Word
  | .setPeriod _ _ => (0x10000000#32, 0xFCFF0000#32)
  | .setVolume _ _ => (0x20000000#32, 0xFCFF0000#32)
  | .setMode _ _ => (0x30000000#32, 0xFCFF0000#32)
  | .nextSample => (0x40000000#32, 0xFFFFFFFF#32)

/-- The rows of the table of 30_encoding.md R72. -/
def tableRows : List (Word × Word) :=
  [(0x10000000#32, 0xFCFF0000#32), (0x20000000#32, 0xFCFF0000#32), (0x30000000#32, 0xFCFF0000#32),
    (0x40000000#32, 0xFFFFFFFF#32)]

/-- The one register a command writes: which of the three, of which channel (20_memory.md R51). -/
def target : Instr → Option (Nat × ChannelField)
  | .setPeriod ch _ => some (1, ch)
  | .setVolume ch _ => some (2, ch)
  | .setMode ch _ => some (3, ch)
  | .nextSample => none

/-! ### The step of the block in closed form, from the tables and closed forms of the spec -/

/-- The truth tables of 42_mixer_quantizer.md R126 and R127. -/
def gateTable (rule : GateRule) (mode : BitVec 2) (toneBit nb : Bool) : Bool :=
  match mode.toNat, rule with
  | 0, _ => false
  | 1, _ => toneBit
  | 2, _ => nb
  | _, .or => toneBit || nb
  | _, .andOr => toneBit && nb

/-- What one channel adds to the sum (42_mixer_quantizer.md R129). -/
def channelLevel (cfg : Cfg) (r : Regs) (i : ChannelId) : Nat :=
  if gateTable cfg.gateRule (r.channel i).mode (r.channel i).outputBit (r.lfsr.getLsbD 0) then
    cfg.level[(r.channel i).volume.toNat] else 0

/-- The sum of the three channels (42_mixer_quantizer.md R130). -/
def levelSum (cfg : Cfg) (r : Regs) : Nat := channelLevel cfg r 0 + channelLevel cfg r 1 + channelLevel cfg r 2

/-- The integer sample for a sum (42_mixer_quantizer.md R131, R132). -/
def sampleOf (cfg : Cfg) (sum : Nat) : Int := scale cfg * (2 * sum - maxSum cfg)

/-- The silence value (42_mixer_quantizer.md R134). -/
def silence (cfg : Cfg) : Int := -(scale cfg * maxSum cfg : Int)

/-- The tick count of the next sample (43_rate_converter.md R141). -/
def ticksOf (cfg : Cfg) (r : Regs) : Nat := (r.tickAcc.toNat + cfg.clockRate) / cfg.sampleRate

/-- One channel after `n` ticks, by the closed form of 40_tone_channel.md R98. -/
def channelAfter (n : Nat) (c : Channel) : Channel :=
  { c with
    counter := countAfter c.counter n c.period
    outputBit := if underflows c.counter n c.period % 2 = 1 then !c.outputBit else c.outputBit }

/-- The two noise registers after `n` ticks: as many shifts as the counter underflows (41_noise_generator.md R112). -/
def noiseAfter (cfg : Cfg) (n : Nat) (r : Regs) : Regs :=
  { r with
    noiseCounter := BitVec.ofNat 16 (countAfter r.noiseCounter.toNat n cfg.noisePeriod)
    lfsr := (lfsrShift cfg)^[underflows r.noiseCounter.toNat n cfg.noisePeriod] r.lfsr }

/-- The registers after one decimation step (44_sample_engine.md R151). -/
def regsAfterStep (cfg : Cfg) (r : Regs) : Regs :=
  { noiseAfter cfg (ticksOf cfg r) r with
    channels := r.channels.map (channelAfter (ticksOf cfg r))
    tickAcc := BitVec.ofNat 32 ((r.tickAcc.toNat + cfg.clockRate) % cfg.sampleRate) }

/-- The period a SET_PERIOD word stores (40_tone_channel.md R90; above `PERIOD_MAX` the free value of assumption log 18). -/
def storedPeriod (cfg : Cfg) (w : Word) : Nat :=
  if valueOf w ≤ periodMax cfg then max (valueOf w) (minPeriod cfg)
  else intoPeriodRange cfg (Config.unstatedPeriod cfg (chField w) (valueField w))

/-- The step of the block on a command word, "State × Response" as in 44_sample_engine.md R150. -/
def referenceStep (cfg : Cfg) (r : Regs) (w : Word) : Regs × Response :=
  if rz1Of w ≠ 0 ∨ rz2Of w ≠ 0 then (r, ⟨.configError, 0⟩)
  else if opOf w = 4 then
    if chOf w ≠ 0 ∨ valueOf w ≠ 0 then (r, ⟨.configError, 0⟩)
    else (regsAfterStep cfg r, ⟨.ok, BitVec.ofInt 16 (sampleOf cfg (levelSum cfg (regsAfterStep cfg r)))⟩)
  else if h : chOf w < 3 then
    let c := r.channel ⟨chOf w, h⟩
    if opOf w = 1 then
      (r.setChannel ⟨chOf w, h⟩ { c with period := storedPeriod cfg w }, ⟨.ok, 0⟩)
    else if opOf w = 2 then
      (r.setChannel ⟨chOf w, h⟩ { c with volume := BitVec.ofNat 4 (min (valueOf w) 15) }, ⟨.ok, 0⟩)
    else if opOf w = 3 ∧ valueOf w ≤ 3 then
      (r.setChannel ⟨chOf w, h⟩ { c with mode := BitVec.ofNat 2 (valueOf w) }, ⟨.ok, 0⟩)
    else (r, ⟨.configError, 0⟩)
  else (r, ⟨.configError, 0⟩)

/-- The registers and the responses of a run of the closed-form step. -/
def referenceRun (cfg : Cfg) : Regs → List Word → Regs × List Response
  | r, [] => (r, [])
  | r, w :: ws =>
    let (r', x) := referenceStep cfg r w
    let (r'', xs) := referenceRun cfg r' ws
    (r'', x :: xs)

/-- The machine run on command words, with the responses it gave, oldest first; none where a step stops or gives none. -/
def respondingRun : List Word → State → Option (State × List Response)
  | [], s => some (s, [])
  | w :: ws, s =>
    match step (present (.command w) s) with
    | .next t =>
      match t.response, respondingRun ws t with
      | some x, some (u, xs) => some (u, x :: xs)
      | _, _ => none
    | _ => none

/-- The tick counts of the first `n` samples from the registers `r` (43_rate_converter.md R141). -/
def tickCounts (cfg : Cfg) : Nat → Regs → List Nat
  | 0, _ => []
  | n + 1, r => (nextTickCount cfg r).1 :: tickCounts cfg n (nextTickCount cfg r).2

/-- The word of NEXT_SAMPLE (30_encoding.md R72). -/
def nextSampleWord : Word := 0x40000000#32

end Sys2Proof.Claims

open Sys2Proof Sys2Proof.Machine Sys2Proof.Claims

/-! ### Reset -/

/-- 10_state.md R33, of every admissible configuration; its `tick_acc` 0 is `ACC_RESET` 0 (R30, 00_scope.md R8). -/
def Obligations.ResetLoadsTheResetValues : Prop :=
  ∀ cfg : Cfg, Admissible cfg →
    ResetValues cfg (State.resetTo cfg).regs ∧ (cfg.accReset = 0 → (State.resetTo cfg).regs.tickAcc = 0)

/-- The invariant of 10_state.md R34 holds after every RESET. The second half is about the configuration `State.reset` has by
the model's own choice (assumption log 2). -/
def Obligations.ResetMeetsTheInvariant : Prop :=
  (∀ cfg : Cfg, Admissible cfg → (State.resetTo cfg).Inv) ∧ State.reset.Inv

/-- 44_sample_engine.md R155, 70_reset_and_hazards.md R186: `rst` makes a new instance at the rates present, whatever the old
state was; under inadmissible rates it is refused. That the host's pending inputs stay is the model's choice (log 6). -/
def Obligations.RstMakesANewInstance : Prop :=
  ∀ (s : State) (c r : Nat) (rest : List Input), s.inputs = .reset c r :: rest →
    (Admissible (withRates s.cfg c r) →
      ∃ t, step s = .next t ∧ t.cfg = withRates s.cfg c r ∧ ResetValues t.cfg t.regs ∧ t.response = none ∧
        t.inputs = rest) ∧
    (¬ Admissible (withRates s.cfg c r) → step s = .refused .inadmissibleConfiguration)

/-! ### The configuration commands -/

/-- 40_tone_channel.md R90, every form: the encoding, the clamp, everything left alone, and channel 3. R90 takes every operand
to be at most `PERIOD_MAX`; SetPeriodBeyondTheRegister is about a narrower register. -/
def Obligations.SetPeriodStoresTheClampedPeriod : Prop :=
  ∀ (ch : ChannelField) (v : Value),
    (encode (.setPeriod ch v)).toNat = 0x10000000 + ch.toNat * 2 ^ 24 + v.toNat ∧
    ∀ s : State, Admissible s.cfg →
      (ch = 3 → RaisesConfigError s (exec (.setPeriod ch v) s)) ∧
      ∀ i : ChannelId, ch.toNat = i.val → v.toNat ≤ periodMax s.cfg →
        ∃ t, exec (.setPeriod ch v) s = .next t ∧
          (t.regs.channel i).period = max v.toNat (minPeriod s.cfg) ∧
          (t.regs.channel i).counter = (s.regs.channel i).counter ∧
          (t.regs.channel i).outputBit = (s.regs.channel i).outputBit ∧
          (t.regs.channel i).volume = (s.regs.channel i).volume ∧
          (t.regs.channel i).mode = (s.regs.channel i).mode ∧
          t.response = some ⟨.ok, 0⟩ ∧ SameButChannel i s t

/-- 40_tone_channel.md R91, every form. -/
def Obligations.SetVolumeStoresTheClampedLevel : Prop :=
  ∀ (ch : ChannelField) (v : Value),
    (encode (.setVolume ch v)).toNat = 0x20000000 + ch.toNat * 2 ^ 24 + v.toNat ∧
    ∀ s : State, Admissible s.cfg →
      (ch = 3 → RaisesConfigError s (exec (.setVolume ch v) s)) ∧
      ∀ i : ChannelId, ch.toNat = i.val →
        ∃ t, exec (.setVolume ch v) s = .next t ∧
          (t.regs.channel i).volume.toNat = min v.toNat 15 ∧
          (t.regs.channel i).period = (s.regs.channel i).period ∧
          (t.regs.channel i).counter = (s.regs.channel i).counter ∧
          (t.regs.channel i).outputBit = (s.regs.channel i).outputBit ∧
          (t.regs.channel i).mode = (s.regs.channel i).mode ∧
          t.response = some ⟨.ok, 0⟩ ∧ SameButChannel i s t

/-- 40_tone_channel.md R92, every form: channel 3 and flags above 3 raise ConfigError. -/
def Obligations.SetModeStoresTheFlags : Prop :=
  ∀ (ch : ChannelField) (v : Value),
    (encode (.setMode ch v)).toNat = 0x30000000 + ch.toNat * 2 ^ 24 + v.toNat ∧
    ∀ s : State, Admissible s.cfg →
      (ch = 3 ∨ 3 < v.toNat → RaisesConfigError s (exec (.setMode ch v) s)) ∧
      ∀ i : ChannelId, ch.toNat = i.val → v.toNat ≤ 3 →
        ∃ t, exec (.setMode ch v) s = .next t ∧
          (t.regs.channel i).mode.toNat = v.toNat ∧
          (t.regs.channel i).period = (s.regs.channel i).period ∧
          (t.regs.channel i).counter = (s.regs.channel i).counter ∧
          (t.regs.channel i).outputBit = (s.regs.channel i).outputBit ∧
          (t.regs.channel i).volume = (s.regs.channel i).volume ∧
          t.response = some ⟨.ok, 0⟩ ∧ SameButChannel i s t

/-- 40_tone_channel.md R93: the frame of the three configuration commands, well formed or not. -/
def Obligations.ConfigurationKeepsThePhase : Prop :=
  ∀ (i : Instr) (s t : State), i ≠ .nextSample → exec i s = .next t →
    (∀ j, (t.regs.channel j).counter = (s.regs.channel j).counter ∧
      (t.regs.channel j).outputBit = (s.regs.channel j).outputBit) ∧
    t.regs.lfsr = s.regs.lfsr ∧ t.regs.noiseCounter = s.regs.noiseCounter ∧ t.regs.tickAcc = s.regs.tickAcc ∧
    (∀ j : ChannelId, (∀ k ch, target i = some (k, ch) → ch.toNat ≠ j.val) → t.regs.channel j = s.regs.channel j) ∧
    t.cfg = s.cfg ∧ t.inputs = s.inputs

/-- 20_memory.md R54: a configuration command given twice in a row leaves the state it leaves when given once, the free value of
assumption log 18 included. -/
def Obligations.ConfigurationIsIdempotent : Prop :=
  ∀ (i : Instr) (s t : State), i ≠ .nextSample → exec i s = .next t → exec i t = .next t

/-- 70_reset_and_hazards.md R188: "No order is imposed among these commands because none reads what another writes". -/
def Obligations.ConfigurationCommandsCommute : Prop :=
  ∀ (i j : Instr) (s : State), Admissible s.cfg → i ≠ .nextSample → j ≠ .nextSample → target i ≠ target j →
    ∃ a b c d, exec i s = .next a ∧ exec j a = .next b ∧ exec j s = .next c ∧ exec i c = .next d ∧ b.regs = d.regs

/-! ### The step -/

/-- 44_sample_engine.md R150: a word the decoder accepts is executed as the command it stands for, in the state in which it
has been taken from the port and the port shows no response. -/
def Obligations.StepRunsTheDecodedCommand : Prop :=
  ∀ (s : State) (w : Word) (rest : List Input) (i : Instr),
    s.inputs = .command w :: rest → decode w = .ok i → step s = exec i { s with inputs := rest, response := none }

/-- 60_exceptions.md R166: what a rejected word does, (1) to (4). -/
def Obligations.RejectedWordRaisesConfigError : Prop :=
  ∀ (s : State) (w : Word) (rest : List Input) (cause : Cause),
    Admissible s.cfg → s.inputs = .command w :: rest → decode w = .error cause →
    ∃ t, step s = .next t ∧ t.regs = s.regs ∧ t.response = some ⟨.configError, 0⟩ ∧ t.cfg = s.cfg ∧ t.inputs = rest ∧
      step t = step { s with inputs := rest }

/-- 60_exceptions.md R179: with no command the block stays frozen in its current state. That the port then shows no response
is the model's choice (log 4, log 5). -/
def Obligations.NoCommandFreezesTheBlock : Prop :=
  ∀ s : State, Admissible s.cfg → s.inputs = [] → step s = .next { s with response := none }

/-- 00_scope.md R9: an inadmissible configuration has no behaviour. Only `rst` with admissible rates leads out of it. -/
def Obligations.InadmissibleConfigurationIsRefused : Prop :=
  ∀ s : State, ¬ Admissible s.cfg →
    (∀ i, exec i s = .refused .inadmissibleConfiguration) ∧
    ((∀ c r rest, s.inputs ≠ .reset c r :: rest) → step s = .refused .inadmissibleConfiguration)

/-- 30_encoding.md R78: every word gets a response; its status bit, and its sample. -/
def Obligations.EveryWordGetsItsResponse : Prop :=
  ∀ (s : State) (w : Word) (rest : List Input), s.Inv → s.inputs = .command w :: rest →
    ∃ t x, step s = .next t ∧ t.response = some x ∧
      (statusBit x.status = 0 ↔ ∃ i, decode w = .ok i) ∧
      (statusBit x.status = 1 ↔ ∃ cause, decode w = .error cause) ∧
      (decode w = .ok .nextSample → x.sample = BitVec.ofInt 16 (sampleOf t.cfg (levelSum t.cfg t.regs))) ∧
      (decode w ≠ .ok .nextSample → x.sample = 0)

/-- 00_scope.md R10, 44_sample_engine.md R155: `rst` samples the rates; nothing else changes the configuration. -/
def Obligations.OnlyRstChangesTheConfiguration : Prop :=
  ∀ s t : State, step s = .next t →
    t.cfg = match s.inputs with
      | .reset c r :: _ => withRates s.cfg c r
      | _ => s.cfg

/-- 44_sample_engine.md R153 and R154, 10_state.md R32: a step that changes a counter, an output bit, the noise registers or
the accumulator executes NEXT_SAMPLE or is `rst`. -/
def Obligations.OnlyNextSampleAdvances : Prop :=
  ∀ s t : State, step s = .next t →
    (t.regs.lfsr ≠ s.regs.lfsr ∨ t.regs.noiseCounter ≠ s.regs.noiseCounter ∨ t.regs.tickAcc ≠ s.regs.tickAcc ∨
      ∃ i, (t.regs.channel i).counter ≠ (s.regs.channel i).counter ∨
        (t.regs.channel i).outputBit ≠ (s.regs.channel i).outputBit) →
    ∃ rest, s.inputs = .command nextSampleWord :: rest ∨ ∃ c r, s.inputs = .reset c r :: rest

/-- 10_state.md R22, R25, R26: each control register is written only by its own command on its own channel, and by `rst`. -/
def Obligations.ControlRegistersHaveOneWriter : Prop :=
  ∀ (s t : State) (j : ChannelId), step s = .next t → (∀ c r rest, s.inputs ≠ .reset c r :: rest) →
    ((t.regs.channel j).period ≠ (s.regs.channel j).period →
      ∃ w rest ch v, s.inputs = .command w :: rest ∧ decode w = .ok (.setPeriod ch v) ∧ ch.toNat = j.val) ∧
    ((t.regs.channel j).volume ≠ (s.regs.channel j).volume →
      ∃ w rest ch v, s.inputs = .command w :: rest ∧ decode w = .ok (.setVolume ch v) ∧ ch.toNat = j.val) ∧
    ((t.regs.channel j).mode ≠ (s.regs.channel j).mode →
      ∃ w rest ch v, s.inputs = .command w :: rest ∧ decode w = .ok (.setMode ch v) ∧ ch.toNat = j.val)

/-! ### Encoding -/

/-- 30_encoding.md R74, step by step, on the fields read by arithmetic, and what executing an invalid word does. -/
def Obligations.DecoderFollowsItsSteps : Prop :=
  ∀ w : Word,
    (BadEncoding w → decode w = .error .badEncoding) ∧
    (¬ BadEncoding w → opOf w = 4 → decode w = .ok .nextSample) ∧
    (¬ BadEncoding w → opOf w ≠ 4 → chOf w = 3 → decode w = .error .badChannel) ∧
    (¬ BadEncoding w → opOf w = 3 → chOf w ≠ 3 → 3 < valueOf w → decode w = .error .badMode) ∧
    (¬ BadEncoding w → opOf w = 1 → chOf w ≠ 3 →
      decode w = .ok (.setPeriod (BitVec.ofNat 2 (chOf w)) (BitVec.ofNat 16 (valueOf w)))) ∧
    (¬ BadEncoding w → opOf w = 2 → chOf w ≠ 3 →
      decode w = .ok (.setVolume (BitVec.ofNat 2 (chOf w)) (BitVec.ofNat 16 (valueOf w)))) ∧
    (¬ BadEncoding w → opOf w = 3 → chOf w ≠ 3 → valueOf w ≤ 3 →
      decode w = .ok (.setMode (BitVec.ofNat 2 (chOf w)) (BitVec.ofNat 16 (valueOf w)))) ∧
    ∀ (s : State) (cause : Cause), Admissible s.cfg → decode w = .error cause →
      RaisesConfigError s (step (present (.command w) s))

/-- 30_encoding.md R72: a word selects the row whose `(w and mask) = match`, the rows exclude each other, and a word that
selects none is BAD_ENCODING. The converse, that BAD_ENCODING is given to no other word, follows R74 ("Steps 1 to 3 are the
words that match no row") against R75 with R76 for SET_MODE with VALUE above 3: the model's reading, assumption log 11. -/
def Obligations.BadEncodingSelectsNoRow : Prop :=
  (∀ w, decode w = .error .badEncoding ↔ ∀ row ∈ tableRows, w &&& row.2 ≠ row.1) ∧
  (∀ w i, decode w = .ok i → w &&& (tableRow i).2 = (tableRow i).1) ∧
  (∀ w : Word, ∀ a ∈ tableRows, ∀ b ∈ tableRows, w &&& a.2 = a.1 → w &&& b.2 = b.1 → a = b)

/-- 30_encoding.md R71, R74, R80: decoding the word of a command gives the command back, every operand at every value; the
word of an ill-formed one is rejected, by the channel first. -/
def Obligations.EncodedCommandDecodesToItself : Prop :=
  ∀ i : Instr, decode (encode i) = match i.invalidity with | none => .ok i | some cause => .error cause

/-- 30_encoding.md R72, R75: a word the decoder accepts is the encoding of what it decodes to, so no accepted word has a
don't-care bit. -/
def Obligations.AcceptedWordIsItsEncoding : Prop :=
  ∀ (w : Word) (i : Instr), decode w = .ok i → i.WellFormed ∧ encode i = w

/-- 30_encoding.md R77, which the spec derives from R74. -/
def Obligations.AcceptedWordsAreCounted : Prop :=
  Nat.card { w : Word // ∃ i, decode w = .ok i } = 393229

/-- The words of the table in 30_encoding.md, section 8, written out there by the spec. -/
def Obligations.ExampleWordsDecode : Prop :=
  decode 0x1000007B#32 = .ok (.setPeriod 0 123) ∧ decode 0x12000000#32 = .ok (.setPeriod 2 0) ∧
  decode 0x2000000F#32 = .ok (.setVolume 0 15) ∧ decode 0x21000014#32 = .ok (.setVolume 1 20) ∧
  decode 0x30000001#32 = .ok (.setMode 0 flagTone) ∧ decode 0x31000002#32 = .ok (.setMode 1 flagNoise) ∧
  decode 0x32000003#32 = .ok (.setMode 2 (flagTone ||| flagNoise)) ∧ decode 0x32000000#32 = .ok (.setMode 2 flagNone) ∧
  decode 0x40000000#32 = .ok .nextSample ∧ decode 0x23000005#32 = .error .badChannel ∧
  decode 0x30000004#32 = .error .badMode ∧ decode 0x40000001#32 = .error .badEncoding ∧
  decode 0x50000000#32 = .error .badEncoding

/-! ### The rate converter -/

/-- 43_rate_converter.md R143 and the equivalence in 00_scope.md R9: MIN_PERIOD is the least period with
`CLOCK_RATE ≤ 2*SAMPLE_RATE*period`, and at least 1. -/
def Obligations.MinPeriodIsTheCeiling : Prop :=
  ∀ cfg : Cfg, 1 ≤ cfg.clockRate → 1 ≤ cfg.sampleRate →
    1 ≤ minPeriod cfg ∧ ∀ m, minPeriod cfg ≤ m ↔ cfg.clockRate ≤ 2 * cfg.sampleRate * m

/-- 43_rate_converter.md R141 and R142. -/
def Obligations.TickCountIsQuotientOrOneMore : Prop :=
  ∀ (cfg : Cfg) (r : Regs), Admissible cfg → r.tickAcc.toNat ≤ cfg.sampleRate - 1 →
    (nextTickCount cfg r).1 * cfg.sampleRate + (nextTickCount cfg r).2.tickAcc.toNat = r.tickAcc.toNat + cfg.clockRate ∧
    (nextTickCount cfg r).2.tickAcc.toNat ≤ cfg.sampleRate - 1 ∧
    (nextTickCount cfg r).1 =
      cfg.clockRate / cfg.sampleRate +
        (if cfg.sampleRate ≤ r.tickAcc.toNat + cfg.clockRate % cfg.sampleRate then 1 else 0) ∧
    (∀ i, (nextTickCount cfg r).2.channel i = r.channel i) ∧ (nextTickCount cfg r).2.lfsr = r.lfsr ∧
    (nextTickCount cfg r).2.noiseCounter = r.noiseCounter

/-- 43_rate_converter.md R144: the first `n` samples after RESET advance exactly `floor(n*C/S)` ticks, so the drift is below
one tick for ever. R144 starts from 0; another `ACC_RESET` of 00_scope.md R8 is counted in. -/
def Obligations.TickTotalsNeverDrift : Prop :=
  ∀ (cfg : Cfg) (n : Nat), Admissible cfg →
    (tickCounts cfg n (resetRegs cfg)).sum = (cfg.accReset + n * cfg.clockRate) / cfg.sampleRate ∧
    (cfg.accReset = 0 → (tickCounts cfg n (resetRegs cfg)).sum = n * cfg.clockRate / cfg.sampleRate)

/-- 43_rate_converter.md R144, R145: after any command words from RESET the accumulator depends only on how many of them were
NEXT_SAMPLE. -/
def Obligations.AccumulatorDependsOnSampleCountAlone : Prop :=
  ∀ (cfg : Cfg) (ws : List Word), Admissible cfg →
    ∃ t, runWords ws (State.resetTo cfg) = .next t ∧
      t.regs.tickAcc.toNat = (cfg.accReset + ws.count nextSampleWord * cfg.clockRate) % cfg.sampleRate

/-! ### The tone channels -/

/-- 40_tone_channel.md R94 and R98: the advance in closed form; with at least one toggle the counter is the floor remainder of
the negative numerator. -/
def Obligations.ToneAdvanceHasItsClosedForm : Prop :=
  ∀ (n : Nat) (c : Channel), 1 ≤ c.period →
    advanceChannel n c = some (channelAfter n c) ∧
    (n ≤ c.counter → (channelAfter n c).counter = c.counter - n ∧
      (channelAfter n c).outputBit = c.outputBit) ∧
    (c.counter < n →
      ((channelAfter n c).counter : Int) = ((c.counter : Int) - n) % c.period)

/-- 40_tone_channel.md R97: `n` ticks at once are `n` ticks one by one. -/
def Obligations.ToneAdvanceIsTickByTick : Prop :=
  ∀ (n : Nat) (c : Channel), 1 ≤ c.period → advanceChannel n c = times (advanceChannel 1) n c

/-- 40_tone_channel.md R99. -/
def Obligations.AtMostTwoTogglesPerSample : Prop :=
  ∀ (cfg : Cfg) (r : Regs) (i : ChannelId), Admissible cfg → r.Inv cfg →
    ∃ count k, toneCount (nextTickCount cfg r).1 (r.channel i) = some (count, k) ∧ k ≤ 2

/-- 10_state.md R23 with 90_conflicts.md C2: `counter < period` is kept by every command but a SET_PERIOD that lowers the
period. -/
def Obligations.CounterStaysBelowItsPeriod : Prop :=
  ∀ (s t : State) (i : Instr) (j : ChannelId), s.Inv → exec i s = .next t →
    (s.regs.channel j).period ≤ (t.regs.channel j).period →
    (s.regs.channel j).counter < (s.regs.channel j).period →
    (t.regs.channel j).counter < (t.regs.channel j).period

/-- 40_tone_channel.md R101: the ticks on which the output bit toggles are exactly `counter + 1 + j*period`. -/
def Obligations.SquareWaveIsExact : Prop :=
  ∀ (c : Channel) (m : Nat), 1 ≤ c.period →
    ∃ a b, times (advanceChannel 1) m c = some a ∧ times (advanceChannel 1) (m + 1) c = some b ∧
      (b.outputBit ≠ a.outputBit ↔ ∃ j, m + 1 = c.counter + 1 + j * c.period)

/-- 70_reset_and_hazards.md R190: after SET_PERIOD the next toggle still comes `counter + 1` ticks later, and only there the
new period is loaded. -/
def Obligations.NewPeriodWaitsForTheReload : Prop :=
  ∀ (s : State) (ch : ChannelField) (v : Value) (i : ChannelId), Admissible s.cfg → ch.toNat = i.val →
    ∃ t, exec (.setPeriod ch v) s = .next t ∧
      (∀ m, m ≤ (s.regs.channel i).counter →
        ∃ c, times (advanceChannel 1) m (t.regs.channel i) = some c ∧ c.outputBit = (s.regs.channel i).outputBit) ∧
      ∃ c, times (advanceChannel 1) ((s.regs.channel i).counter + 1) (t.regs.channel i) = some c ∧
        c.outputBit = !(s.regs.channel i).outputBit ∧ c.counter + 1 = (t.regs.channel i).period

/-! ### The noise generator -/

/-- 41_noise_generator.md R110 and R111, bit by bit: right by one, the two taps' XOR enters at bit 15, and zero is reseeded. -/
def Obligations.LfsrShiftsRightAndIsGuarded : Prop :=
  ∀ (cfg : Cfg) (r : BitVec 16),
    (∀ i, i < 15 → (lfsrRaw cfg r).getLsbD i = r.getLsbD (i + 1)) ∧
    (lfsrRaw cfg r).getLsbD 15 = (r.getLsbD cfg.noiseTapA ^^ r.getLsbD cfg.noiseTapB) ∧
    (lfsrRaw cfg r ≠ 0 → lfsrShift cfg r = lfsrRaw cfg r) ∧
    (lfsrRaw cfg r = 0 → lfsrShift cfg r = cfg.noiseSeed)

/-- 41_noise_generator.md R115, and the last sentence of R116: the unguarded shift is a permutation exactly when one of the two
taps is bit 0, and then the guard never fires from a nonzero register. -/
def Obligations.UnguardedShiftPermutesIffATapIsBitZero : Prop :=
  ∀ cfg : Cfg, cfg.noiseTapA ≠ cfg.noiseTapB →
    (Function.Bijective (lfsrRaw cfg) ↔ cfg.noiseTapA = 0 ∨ cfg.noiseTapB = 0) ∧
    (cfg.noiseTapA = 0 ∨ cfg.noiseTapB = 0 → ∀ r, r ≠ 0 → lfsrShift cfg r = lfsrRaw cfg r)

/-- 41_noise_generator.md R112: the number of shifts, the new counter, and what is left alone. -/
def Obligations.NoiseAdvanceHasItsClosedForm : Prop :=
  ∀ (cfg : Cfg) (n : Nat) (r : Regs), Admissible cfg → r.Inv cfg →
    noiseAdvance cfg n r = some (noiseAfter cfg n r) ∧
    (noiseAfter cfg n r).noiseCounter.toNat = countAfter r.noiseCounter.toNat n cfg.noisePeriod ∧
    underflows r.noiseCounter.toNat n cfg.noisePeriod ≤ n

/-- 41_noise_generator.md R117: `n` ticks at once are `n` ticks one by one. -/
def Obligations.NoiseAdvanceIsTickByTick : Prop :=
  ∀ (cfg : Cfg) (n : Nat) (r : Regs), Admissible cfg → r.Inv cfg →
    noiseAdvance cfg n r = times (noiseAdvance cfg 1) n r

/-- 41_noise_generator.md R114 and R118, 43_rate_converter.md R145: after RESET the noise registers and the accumulator depend
on how many NEXT_SAMPLE there were, and on no other word. -/
def Obligations.NoiseIgnoresConfigurationCommands : Prop :=
  ∀ (cfg : Cfg) (ws ws' : List Word), Admissible cfg → ws.count nextSampleWord = ws'.count nextSampleWord →
    ∃ t u, runWords ws (State.resetTo cfg) = .next t ∧ runWords ws' (State.resetTo cfg) = .next u ∧
      t.regs.lfsr = u.regs.lfsr ∧ t.regs.noiseCounter = u.regs.noiseCounter ∧ t.regs.tickAcc = u.regs.tickAcc

/-! ### The mixer -/

/-- 42_mixer_quantizer.md R126, R127, R128: the gate is the tables of the two rules, and a channel of mode none contributes
nothing. -/
def Obligations.GateFollowsItsTables : Prop :=
  (∀ (rule : GateRule) (mode : BitVec 2) (toneBit nb : Bool),
    gate rule mode toneBit nb = gateTable rule mode toneBit nb) ∧
  ∀ (cfg : Cfg) (r : Regs) (i : ChannelId), (r.channel i).mode = 0 → contribution cfg r i = 0

/-- 42_mixer_quantizer.md R125, R130, R136: the sample on the port, read as two's complement, is exactly
`SCALE*(2*sum - MAX_SUM)`: nothing wraps, nothing is clamped. -/
def Obligations.SampleNeverWraps : Prop :=
  ∀ (cfg : Cfg) (r : Regs), Admissible cfg →
    levelSum cfg r ≤ maxSum cfg ∧ (mix cfg r).toInt = sampleOf cfg (levelSum cfg r) ∧
    -32767 ≤ sampleOf cfg (levelSum cfg r) ∧ sampleOf cfg (levelSum cfg r) ≤ 32767

/-- 42_mixer_quantizer.md R134: with every volume 0, or every mode none, NEXT_SAMPLE returns the silence value. -/
def Obligations.MutedChannelsGiveSilence : Prop :=
  ∀ s : State, s.Inv → (∀ i, (s.regs.channel i).volume = 0 ∨ (s.regs.channel i).mode = 0) →
    ∃ t x, exec .nextSample s = .next t ∧ t.response = some ⟨.ok, x⟩ ∧ x.toInt = silence s.cfg

/-- 42_mixer_quantizer.md R137: where one channel alone can contribute, a sample is one of two values. -/
def Obligations.OneChannelIsBilevel : Prop :=
  ∀ (s : State) (i : ChannelId), s.Inv →
    (∀ j, j ≠ i → (s.regs.channel j).volume = 0 ∨ (s.regs.channel j).mode = 0) →
    ∃ t x, exec .nextSample s = .next t ∧ t.response = some ⟨.ok, x⟩ ∧
      (x.toInt = silence s.cfg ∨ x.toInt = sampleOf s.cfg (levelOf s.cfg (s.regs.channel i).volume))

/-- 70_reset_and_hazards.md R188: nothing configured, NEXT_SAMPLE returns silence however often it is given. -/
def Obligations.SilentUntilConfigured : Prop :=
  ∀ (cfg : Cfg) (n : Nat), Admissible cfg →
    ∃ t x, runWords (List.replicate (n + 1) nextSampleWord) (State.resetTo cfg) = .next t ∧
      t.response = some ⟨.ok, x⟩ ∧ x.toInt = silence cfg

/-! ### NEXT_SAMPLE -/

/-- 44_sample_engine.md R151: NEXT_SAMPLE completes and its result, register by register, in closed form; a word of its opcode
with anything in the other fields raises ConfigError instead. -/
def Obligations.NextSampleAdvancesAndMixes : Prop :=
  encode .nextSample = nextSampleWord ∧
  ∀ s : State, s.Inv →
    exec .nextSample s =
      .next { s with
        regs := regsAfterStep s.cfg s.regs
        response := some ⟨.ok, BitVec.ofInt 16 (sampleOf s.cfg (levelSum s.cfg (regsAfterStep s.cfg s.regs)))⟩ } ∧
    ∀ w : Word, opOf w = 4 → w ≠ nextSampleWord → RaisesConfigError s (step (present (.command w) s))

/-- 10_state.md R32: what NEXT_SAMPLE does not write, in every state. -/
def Obligations.NextSampleKeepsTheControlRegisters : Prop :=
  ∀ s t : State, exec .nextSample s = .next t →
    (∀ i, (t.regs.channel i).period = (s.regs.channel i).period ∧
      (t.regs.channel i).volume = (s.regs.channel i).volume ∧ (t.regs.channel i).mode = (s.regs.channel i).mode) ∧
    t.cfg = s.cfg ∧ t.inputs = s.inputs

/-- When NEXT_SAMPLE stops: the loop of 40_tone_channel.md R94 never ends exactly for a channel of period 0 that underflows. The
stop itself is the model's (log 8): the spec has no such state (10_state.md R22). In every other state it completes. -/
def Obligations.NextSampleStopsOnlyOnAZeroPeriod : Prop :=
  ∀ s : State, Admissible s.cfg →
    ((∃ i, (s.regs.channel i).period = 0 ∧ (s.regs.channel i).counter < ticksOf s.cfg s.regs) →
      exec .nextSample s = .fault .advanceNeverEnds) ∧
    ((∀ i, (s.regs.channel i).period = 0 → ticksOf s.cfg s.regs ≤ (s.regs.channel i).counter) →
      ∃ t, exec .nextSample s = .next t)

/-- 70_reset_and_hazards.md R189: a channel whose period is set before the first sample shows its first toggle in that sample
exactly when the step has at least one tick and no more than the period. -/
def Obligations.FirstSampleShowsTheFirstToggle : Prop :=
  ∀ (cfg : Cfg) (ch : ChannelField) (v : Value) (i : ChannelId), Admissible cfg → ch.toNat = i.val →
    ∃ t, runWords [encode (.setPeriod ch v), nextSampleWord] (State.resetTo cfg) = .next t ∧
      (v.toNat ≤ periodMax cfg → (t.regs.channel i).period = max v.toNat (minPeriod cfg)) ∧
      ((t.regs.channel i).outputBit = true ↔
        1 ≤ (cfg.accReset + cfg.clockRate) / cfg.sampleRate ∧
        (cfg.accReset + cfg.clockRate) / cfg.sampleRate ≤ (t.regs.channel i).period)

/-- 43_rate_converter.md R141, 44_sample_engine.md R151, the corner `n = 0`: only the accumulator changes, and the sample is the
mix of the state before. -/
def Obligations.ZeroTickSampleMovesOnlyTheAccumulator : Prop :=
  ∀ s : State, s.Inv → s.regs.tickAcc.toNat + s.cfg.clockRate < s.cfg.sampleRate →
    exec .nextSample s =
      .next { s with
        regs := { s.regs with tickAcc := BitVec.ofNat 32 (s.regs.tickAcc.toNat + s.cfg.clockRate) }
        response := some ⟨.ok, mix s.cfg s.regs⟩ }

/-- 44_sample_engine.md R152: the order of the four advances does not matter. -/
def Obligations.AdvancesCommute : Prop :=
  ∀ (cfg : Cfg) (n : Nat) (r : Regs),
    (∀ i, (noiseAdvance cfg n r).bind (toneAdvance i n) = (toneAdvance i n r).bind (noiseAdvance cfg n)) ∧
    ∀ i j, i ≠ j → (toneAdvance i n r).bind (toneAdvance j n) = (toneAdvance j n r).bind (toneAdvance i n)

/-- 40_tone_channel.md R103, 41_noise_generator.md R114, 10_state.md R36: a muted or disabled channel keeps running; volumes and
modes have no influence on any counter, output bit or shared register. -/
def Obligations.VolumeAndModeDoNotStopAnything : Prop :=
  ∀ s s' : State, s.Inv → s'.Inv → s.cfg = s'.cfg → s.regs.lfsr = s'.regs.lfsr →
    s.regs.noiseCounter = s'.regs.noiseCounter → s.regs.tickAcc = s'.regs.tickAcc →
    (∀ i, (s.regs.channel i).period = (s'.regs.channel i).period ∧
      (s.regs.channel i).counter = (s'.regs.channel i).counter ∧
      (s.regs.channel i).outputBit = (s'.regs.channel i).outputBit) →
    ∃ t t', exec .nextSample s = .next t ∧ exec .nextSample s' = .next t' ∧
      t.regs.lfsr = t'.regs.lfsr ∧ t.regs.noiseCounter = t'.regs.noiseCounter ∧ t.regs.tickAcc = t'.regs.tickAcc ∧
      ∀ i, (t.regs.channel i).counter = (t'.regs.channel i).counter ∧
        (t.regs.channel i).outputBit = (t'.regs.channel i).outputBit

/-- 10_state.md R38: what any command leaves in channel `j` does not depend on the other channels' registers. -/
def Obligations.ChannelsAreIndependent : Prop :=
  ∀ (i : Instr) (j : ChannelId) (s s' : State), s.Inv → s'.Inv → s.cfg = s'.cfg →
    s.regs.tickAcc = s'.regs.tickAcc → s.regs.channel j = s'.regs.channel j →
    ∃ t t', exec i s = .next t ∧ exec i s' = .next t' ∧ t.regs.channel j = t'.regs.channel j

/-! ### Whole-machine results -/

/-- 10_state.md R34: every step keeps the invariant, from every state that has it. -/
def Obligations.StepKeepsTheInvariant : Prop :=
  ∀ s t : State, s.Inv → step s = .next t → t.Inv

/-- 10_state.md R34: every state reachable from RESET by any inputs, further resets among them, has the invariant. -/
def Obligations.EveryReachableStateHasTheInvariant : Prop :=
  ∀ (cfg : Cfg) (inputs : List Input) (t : State), Admissible cfg →
    runInputs inputs (State.resetTo cfg) = .next t → t.Inv

/-- 44_sample_engine.md R150, 60_exceptions.md R171 and R172: from a state with the invariant no step stops, but for a `rst` to
inadmissible rates. -/
def Obligations.NothingStopsTheBlock : Prop :=
  ∀ s : State, s.Inv →
    (∀ c r rest, s.inputs = .reset c r :: rest → Admissible (withRates s.cfg c r)) →
    ∃ t, step s = .next t

/-- 44_sample_engine.md R150: on every command word the machine does what the closed-form step of the block does. For an
operand of SET_PERIOD above `PERIOD_MAX` both store the free value of assumption log 18, the model's choice. -/
def Obligations.MachineRefinesTheClosedForm : Prop :=
  ∀ (s : State) (w : Word), s.Inv →
    step (present (.command w) s) =
      .next { s with
        regs := (referenceStep s.cfg s.regs w).1
        response := some (referenceStep s.cfg s.regs w).2 }

/-- 44_sample_engine.md R159: from RESET the responses to any command words are those of the closed-form run, a function of the
configuration and the words and of nothing else; the free value of assumption log 18, the model's choice, is such a function
too. -/
def Obligations.RunsAreReproducible : Prop :=
  ∀ (cfg : Cfg) (ws : List Word), Admissible cfg →
    respondingRun ws (State.resetTo cfg) =
      some ({ State.resetTo cfg with
          regs := (referenceRun cfg (resetRegs cfg) ws).1
          response := (referenceRun cfg (resetRegs cfg) ws).2.getLast? },
        (referenceRun cfg (resetRegs cfg) ws).2)

/-- 60_exceptions.md R166 (4), 70_reset_and_hazards.md R195: rejected words can be left out of any command stream without a
trace in the registers. -/
def Obligations.RejectedWordsCanBeErased : Prop :=
  ∀ (s : State) (ws : List Word), s.Inv →
    ∃ t u, runWords ws s = .next t ∧ runWords (ws.filter fun w => (decode w).isOk) s = .next u ∧
      t.regs = u.regs ∧ t.cfg = u.cfg ∧ t.inputs = u.inputs

/-! ### A period register narrower than the operand -/

/-- 00_scope.md R8 lets `PERIOD_BITS` be less than 16, and 40_tone_channel.md R90 states no result for an operand above
`PERIOD_MAX`. The model's choice (assumption log 18): SET_PERIOD completes all the same, stores some legal period (10_state.md
R22), a free value, and has every other effect of R90. -/
def Obligations.SetPeriodBeyondTheRegister : Prop :=
  ∀ (ch : ChannelField) (v : Value) (s : State) (i : ChannelId), Admissible s.cfg → ch.toNat = i.val →
    periodMax s.cfg < v.toNat →
    ∃ t, exec (.setPeriod ch v) s = .next t ∧
      minPeriod s.cfg ≤ (t.regs.channel i).period ∧ (t.regs.channel i).period ≤ periodMax s.cfg ∧
      (t.regs.channel i).counter = (s.regs.channel i).counter ∧
      (t.regs.channel i).outputBit = (s.regs.channel i).outputBit ∧
      (t.regs.channel i).volume = (s.regs.channel i).volume ∧
      (t.regs.channel i).mode = (s.regs.channel i).mode ∧
      t.response = some ⟨.ok, 0⟩ ∧ SameButChannel i s t
end

