-- ==== Sys2Proof/Laws/Encoding.lean ====
section
/-! SUPPORT. The fields of a command word as numbers, and the word a field layout spells (30_encoding.md R71). -/

namespace Sys2Proof

/-- Concatenation as a number (00_scope.md R11). -/
theorem toNat_append_eq_add {m n : Nat} (x : BitVec m) (y : BitVec n) :
    (x ++ y).toNat = x.toNat * 2 ^ n + y.toNat := by
  rw [BitVec.toNat_append, ← Nat.shiftLeft_add_eq_or_of_lt y.isLt, Nat.shiftLeft_eq]

theorem commandWord_toNat (op : BitVec 4) (ch : ChannelField) (value : Value) :
    (commandWord op ch value).toNat = op.toNat * 2 ^ 28 + ch.toNat * 2 ^ 24 + value.toNat := by
  simp only [commandWord, toNat_append_eq_add, BitVec.toNat_ofNat]
  omega

theorem opField_toNat (w : Word) : (opField w).toNat = w.toNat / 2 ^ 28 := by
  have := w.isLt
  simp only [opField, BitVec.extractLsb'_toNat, Nat.shiftRight_eq_div_pow]
  omega

theorem rz1Field_toNat (w : Word) : (rz1Field w).toNat = w.toNat / 2 ^ 26 % 4 := by
  simp [rz1Field, BitVec.extractLsb'_toNat, Nat.shiftRight_eq_div_pow]

theorem chField_toNat (w : Word) : (chField w).toNat = w.toNat / 2 ^ 24 % 4 := by
  simp [chField, BitVec.extractLsb'_toNat, Nat.shiftRight_eq_div_pow]

theorem rz2Field_toNat (w : Word) : (rz2Field w).toNat = w.toNat / 2 ^ 16 % 256 := by
  simp [rz2Field, BitVec.extractLsb'_toNat, Nat.shiftRight_eq_div_pow]

theorem valueField_toNat (w : Word) : (valueField w).toNat = w.toNat % 2 ^ 16 := by
  simp [valueField, BitVec.extractLsb'_toNat]

/-- The five fields of a word the encoder lays out are the ones it was given, the reserved ones 0. -/
theorem fields_commandWord (op : BitVec 4) (ch : ChannelField) (value : Value) :
    opField (commandWord op ch value) = op ∧ rz1Field (commandWord op ch value) = 0#2 ∧
      chField (commandWord op ch value) = ch ∧ rz2Field (commandWord op ch value) = 0#8 ∧
      valueField (commandWord op ch value) = value := by
  have := op.isLt
  have := ch.isLt
  have := value.isLt
  simp only [← BitVec.toNat_inj, opField_toNat, rz1Field_toNat, chField_toNat, rz2Field_toNat, valueField_toNat,
    commandWord_toNat, BitVec.toNat_ofNat]
  omega

/-- A word is the concatenation of its five fields. -/
theorem toNat_eq_fields (w : Word) :
    w.toNat = (opField w).toNat * 2 ^ 28 + (rz1Field w).toNat * 2 ^ 26 + (chField w).toNat * 2 ^ 24 +
      (rz2Field w).toNat * 2 ^ 16 + (valueField w).toNat := by
  simp only [opField_toNat, rz1Field_toNat, chField_toNat, rz2Field_toNat, valueField_toNat]
  omega
/-- What the mask of the three configuration rows keeps (30_encoding.md R72): `OP`, `RZ1` and `RZ2`. -/
theorem and_rowMask (w : Word) :
    w &&& 0xFCFF0000#32 =
      commandWord (opField w) 0#2 0#16 ||| (rz1Field w).setWidth 32 <<< 26 ||| (rz2Field w).setWidth 32 <<< 16 := by
  apply BitVec.eq_of_getLsbD_eq; intro i hi
  have e : ∀ i, (commandWord (opField w) 0#2 0#16).getLsbD i = (decide (28 ≤ i) && (opField w).getLsbD (i-28)) := by
    intro i
    simp only [BitVec.getLsbD, commandWord_toNat, Nat.zero_mul, Nat.add_zero, show BitVec.toNat (0#2) = 0 from rfl, show BitVec.toNat (0#16) = 0 from rfl]
    rw [Nat.testBit_mul_two_pow]
  simp only [BitVec.getLsbD_or, BitVec.getLsbD_and, e]
  interval_cases i <;> simp [opField, rz1Field, rz2Field, field, BitVec.getElem_extractLsb']

/-- Three disjoint fields or-ed together are their sum. -/
theorem or_fields_eq_add {a b c : Nat} (hb : b < 4) (hc : c < 256) :
    a * 2 ^ 28 ||| b * 2 ^ 26 ||| c * 2 ^ 16 = a * 2 ^ 28 + b * 2 ^ 26 + c * 2 ^ 16 := by
  have e1 := Nat.shiftLeft_add_eq_or_of_lt (i := 28) (b := b * 2 ^ 26) (by omega) a
  have e2 := Nat.shiftLeft_add_eq_or_of_lt (i := 26) (b := c * 2 ^ 16) (by omega) (a * 4 + b)
  rw [Nat.shiftLeft_eq] at e1 e2
  rw [← e1]
  convert e2.symm using 2 <;> ring

/-- The same as a number. -/
theorem and_rowMask_toNat (w : Word) :
    (w &&& 0xFCFF0000#32).toNat =
      (opField w).toNat * 2 ^ 28 + (rz1Field w).toNat * 2 ^ 26 + (rz2Field w).toNat * 2 ^ 16 := by
  have h1 := (rz1Field w).isLt
  have h2 := (rz2Field w).isLt
  rw [← or_fields_eq_add h1 h2, and_rowMask, BitVec.toNat_or, BitVec.toNat_or, commandWord_toNat,
    BitVec.toNat_shiftLeft, BitVec.toNat_shiftLeft, BitVec.toNat_setWidth, BitVec.toNat_setWidth,
    Nat.shiftLeft_eq, Nat.shiftLeft_eq]
  norm_num
  congr 2 <;> omega

end Sys2Proof
end

