-- ==== Sys2Proof/Laws/State.lean ====
section
/-! SUPPORT. One lemma per field per update, so that no proof unfolds a record update. -/

namespace Sys2Proof.Machine

/-! ### The register file of channels -/

@[simp] theorem Regs.channel_setChannel_self (r : Regs) (i : ChannelId) (c : Channel) :
    (r.setChannel i c).channel i = c := by simp [Regs.channel, Regs.setChannel]

@[simp] theorem Regs.channel_setChannel_ne (r : Regs) {i j : ChannelId} (c : Channel) (h : j ≠ i) :
    (r.setChannel i c).channel j = r.channel j := by
  have : i.val ≠ j.val := fun e => h (Fin.ext e.symm)
  simp [Regs.channel, Regs.setChannel, this]

@[simp] theorem Regs.setChannel_lfsr (r : Regs) (i : ChannelId) (c : Channel) : (r.setChannel i c).lfsr = r.lfsr := rfl

@[simp] theorem Regs.setChannel_noiseCounter (r : Regs) (i : ChannelId) (c : Channel) :
    (r.setChannel i c).noiseCounter = r.noiseCounter := rfl

@[simp] theorem Regs.setChannel_tickAcc (r : Regs) (i : ChannelId) (c : Channel) :
    (r.setChannel i c).tickAcc = r.tickAcc := rfl

/-- Two register files are equal when each channel and each shared register is. -/
theorem Regs.ext_channel {r r' : Regs} (hc : ∀ i, r.channel i = r'.channel i) (hl : r.lfsr = r'.lfsr)
    (hn : r.noiseCounter = r'.noiseCounter) (ht : r.tickAcc = r'.tickAcc) : r = r' := by
  have : r.channels = r'.channels := Vector.ext fun i hi => hc ⟨i, hi⟩
  cases r; cases r'; simp_all

/-- The later write to a channel counts. -/
@[simp] theorem Regs.setChannel_setChannel (r : Regs) (i : ChannelId) (a b : Channel) :
    (r.setChannel i a).setChannel i b = r.setChannel i b := by
  simp [Regs.setChannel]

/-- Writes to different channels commute. -/
theorem Regs.setChannel_comm (r : Regs) {i j : ChannelId} (h : i ≠ j) (a b : Channel) :
    (r.setChannel i a).setChannel j b = (r.setChannel j b).setChannel i a := by
  refine Regs.ext_channel (fun k => ?_) rfl rfl rfl
  by_cases hi : k = i <;> by_cases hj : k = j <;> simp_all

@[simp] theorem Regs.channel_of_lfsr (r : Regs) (x : BitVec 16) (i : ChannelId) :
    Regs.channel { r with lfsr := x } i = r.channel i := rfl

@[simp] theorem Regs.channel_of_tickAcc (r : Regs) (x : BitVec 32) (i : ChannelId) :
    Regs.channel { r with tickAcc := x } i = r.channel i := rfl

@[simp] theorem Regs.channel_of_noise (r : Regs) (x y : BitVec 16) (i : ChannelId) :
    Regs.channel { r with lfsr := x, noiseCounter := y } i = r.channel i := rfl

/-! ### RESET -/

@[simp] theorem resetRegs_channel (cfg : Cfg) (i : ChannelId) : (resetRegs cfg).channel i = resetChannel cfg := by
  simp [Regs.channel, resetRegs]

@[simp] theorem resetRegs_lfsr (cfg : Cfg) : (resetRegs cfg).lfsr = cfg.noiseSeed := rfl
@[simp] theorem resetRegs_noiseCounter (cfg : Cfg) : (resetRegs cfg).noiseCounter = 0#16 := rfl
@[simp] theorem resetRegs_tickAcc (cfg : Cfg) : (resetRegs cfg).tickAcc = BitVec.ofNat 32 cfg.accReset := rfl
@[simp] theorem resetTo_cfg (cfg : Cfg) : (State.resetTo cfg).cfg = cfg := rfl
@[simp] theorem resetTo_regs (cfg : Cfg) : (State.resetTo cfg).regs = resetRegs cfg := rfl
@[simp] theorem resetTo_inputs (cfg : Cfg) : (State.resetTo cfg).inputs = [] := rfl
@[simp] theorem resetTo_response (cfg : Cfg) : (State.resetTo cfg).response = none := rfl

/-! ### `respond` and `raiseConfigError` -/

@[simp] theorem respond_cfg (st : Status) (x : Sample) (s : State) : (respond st x s).cfg = s.cfg := rfl
@[simp] theorem respond_regs (st : Status) (x : Sample) (s : State) : (respond st x s).regs = s.regs := rfl
@[simp] theorem respond_inputs (st : Status) (x : Sample) (s : State) : (respond st x s).inputs = s.inputs := rfl
@[simp] theorem respond_response (st : Status) (x : Sample) (s : State) :
    (respond st x s).response = some ⟨st, x⟩ := rfl

@[simp] theorem raiseConfigError_cfg (c : Cause) (s : State) : (raiseConfigError c s).cfg = s.cfg := rfl
@[simp] theorem raiseConfigError_regs (c : Cause) (s : State) : (raiseConfigError c s).regs = s.regs := rfl
@[simp] theorem raiseConfigError_inputs (c : Cause) (s : State) : (raiseConfigError c s).inputs = s.inputs := rfl
@[simp] theorem raiseConfigError_response (c : Cause) (s : State) :
    (raiseConfigError c s).response = some ⟨.configError, 0⟩ := rfl

/-! ### `modifyChannel` -/

@[simp] theorem modifyChannel_cfg (i : ChannelId) (f : Channel → Channel) (s : State) :
    (modifyChannel i f s).cfg = s.cfg := rfl
@[simp] theorem modifyChannel_inputs (i : ChannelId) (f : Channel → Channel) (s : State) :
    (modifyChannel i f s).inputs = s.inputs := rfl
@[simp] theorem modifyChannel_response (i : ChannelId) (f : Channel → Channel) (s : State) :
    (modifyChannel i f s).response = s.response := rfl
@[simp] theorem modifyChannel_regs (i : ChannelId) (f : Channel → Channel) (s : State) :
    (modifyChannel i f s).regs = s.regs.setChannel i (f (s.regs.channel i)) := rfl

/-! ### The input port -/

@[simp] theorem present_cfg (x : Input) (s : State) : (present x s).cfg = s.cfg := rfl
@[simp] theorem present_regs (x : Input) (s : State) : (present x s).regs = s.regs := rfl
@[simp] theorem present_inputs (x : Input) (s : State) : (present x s).inputs = x :: s.inputs := rfl
@[simp] theorem present_response (x : Input) (s : State) : (present x s).response = s.response := rfl

theorem takeInput_nil {s : State} (h : s.inputs = []) : takeInput s = (none, { s with response := none }) := by
  simp [takeInput, h]

theorem takeInput_cons {s : State} {input : Input} {rest : List Input} (h : s.inputs = input :: rest) :
    takeInput s = (some input, { s with inputs := rest, response := none }) := by
  simp [takeInput, h]

end Sys2Proof.Machine
end

