-- ==== Sys2Proof/Laws/Ops.lean ====
section
/-! SUPPORT. For each shared operation, once, what it can do; later proofs cite these and do not unfold it. -/

namespace Sys2Proof.Machine

/-! ### Admissibility -/

theorem whenAdmissible_pos {s : State} (h : Admissible s.cfg) (k : Result) : whenAdmissible s k = k := if_pos h

theorem whenAdmissible_neg {s : State} (h : ¬ Admissible s.cfg) (k : Result) :
    whenAdmissible s k = .refused .inadmissibleConfiguration := if_neg h

theorem whenAdmissible_eq_next {s t : State} {k : Result} :
    whenAdmissible s k = .next t ↔ Admissible s.cfg ∧ k = .next t := by
  by_cases h : Admissible s.cfg
  · simp [whenAdmissible_pos h, h]
  · simp [whenAdmissible_neg h, h]

theorem minPeriod_pos {cfg : Cfg} (h : Admissible cfg) : 1 ≤ minPeriod cfg := by
  obtain ⟨⟨hc, -⟩, ⟨hs, -⟩, -⟩ := h
  exact (Nat.one_le_div_iff (by omega)).2 (by omega)

theorem minPeriod_le {cfg : Cfg} (h : Admissible cfg) : minPeriod cfg ≤ periodMax cfg := h.2.2.1

/-- With a register of 16 bits or more every operand is at most `PERIOD_MAX` (40_tone_channel.md R90). -/
theorem value_le_periodMax {cfg : Cfg} (h : 16 ≤ cfg.periodBits) (v : Value) : v.toNat ≤ periodMax cfg := by
  have := Nat.pow_le_pow_right (show 0 < 2 by omega) h
  have := v.isLt
  unfold periodMax
  omega

theorem accReset_lt {cfg : Cfg} (h : Admissible cfg) : cfg.accReset < cfg.sampleRate := by
  have h1 := h.2.1.1
  have := h.2.2.2.2.2.2.2.2.2.2.2
  omega

/-- The accumulator's reset value fits its 32 bits (10_state.md R30). -/
theorem resetRegs_tickAcc_toNat {cfg : Cfg} (h : Admissible cfg) : (resetRegs cfg).tickAcc.toNat = cfg.accReset := by
  have h1 := h.2.1.2
  have := accReset_lt h
  rw [resetRegs_tickAcc, BitVec.toNat_ofNat]
  exact Nat.mod_eq_of_lt (by omega)

/-! ### Operands -/

theorem selectChannel_eq_some {ch : ChannelField} {i : ChannelId} : selectChannel ch = some i ↔ ch.toNat = i.val := by
  unfold selectChannel
  split
  · simp [Fin.ext_iff]
  · have := i.isLt
    simp only [reduceCtorEq, false_iff]
    omega

theorem selectChannel_eq_none {ch : ChannelField} : selectChannel ch = none ↔ ch = 3#2 := by
  revert ch; decide

theorem clampPeriod_of_le {cfg : Cfg} {v : Value} (h : v.toNat ≤ periodMax cfg) (ch : ChannelField) :
    clampPeriod cfg ch v = max v.toNat (minPeriod cfg) := if_pos h

/-- Whatever the operand and whatever the free value, the period stored is a legal one (10_state.md R22). -/
theorem clampPeriod_mem {cfg : Cfg} (h : Admissible cfg) (ch : ChannelField) (v : Value) :
    minPeriod cfg ≤ clampPeriod cfg ch v ∧ clampPeriod cfg ch v ≤ periodMax cfg := by
  have hm := minPeriod_le h
  unfold clampPeriod
  split
  · omega
  · have := Nat.mod_lt (Config.unstatedPeriod cfg ch v) (show periodMax cfg - minPeriod cfg + 1 > 0 by omega)
    unfold intoPeriodRange
    omega

theorem clampVolume_toNat (v : Value) : (clampVolume v).toNat = min v.toNat 15 := by
  simp only [clampVolume, volMax, BitVec.toNat_ofNat]
  omega

theorem modeFlags_eq_none {v : Value} : modeFlags v = none ↔ 3 < v.toNat := by
  unfold modeFlags; split <;> simp_all

theorem modeFlags_eq_some {v : Value} {m : BitVec 2} : modeFlags v = some m ↔ m.toNat = v.toNat := by
  have := m.isLt
  unfold modeFlags
  split
  · simp only [reduceCtorEq, false_iff]; omega
  · simp only [Option.some.injEq, ← BitVec.toNat_inj, BitVec.extractLsb'_toNat, Nat.shiftRight_zero]
    omega

/-! ### Counting down -/

theorem underflows_of_le {c n : Nat} (h : n ≤ c) (p : Nat) : underflows c n p = 0 := if_pos h

theorem countAfter_of_le {c n : Nat} (h : n ≤ c) (p : Nat) : countAfter c n p = c - n := by
  simp [countAfter, underflows_of_le h]

/-- One round of the loop: with the count `d` below zero, `d` at least 1, one underflow is done and `d - p` is left. -/
theorem underflows_below_zero {d p : Nat} (hd : 1 ≤ d) (hp : 0 < p) :
    underflows 0 d p = (if d ≤ p then 0 else underflows 0 (d - p) p) + 1 := by
  unfold underflows
  split
  · omega
  · split
    · rw [Nat.div_eq_of_lt_le] <;> omega
    · rw [if_neg (by omega), show d - 0 + p - 1 = d - p - 0 + p - 1 + p by omega, Nat.add_div_right _ hp]

/-- The loop ends and underflows as often as the closed form says, whatever the fuel, if there is enough of it. -/
theorem countDown_of_neg {α : Type} {p : Nat} (hp : 0 < p) (f : α → α) (fuel d : Nat) (hd : d ≤ fuel) (a : α) :
    countDown p f fuel (-(d : Int)) a = some (-(d : Int) + underflows 0 d p * p, f^[underflows 0 d p] a) := by
  induction fuel generalizing d a with
  | zero => obtain rfl : d = 0 := by omega
            simp [countDown, underflows]
  | succ fuel ih =>
    rcases Nat.eq_zero_or_pos d with rfl | hpos
    · simp [countDown, underflows]
    · rw [countDown, if_pos (by omega), underflows_below_zero hpos hp]
      split
      · next hle =>
        obtain ⟨e, rfl⟩ := Nat.exists_eq_add_of_le hle
        have : ∀ m, countDown (d + e) f m (-(d : Int) + ((d + e : Nat) : Int)) (f a) = some ((e : Int), f a) := by
          intro m
          rw [show -(d : Int) + ((d + e : Nat) : Int) = e by omega]
          cases m <;> simp [countDown]
        rw [this]
        simp only [zero_add, Nat.cast_one, one_mul, Function.iterate_one, Option.some.injEq, Prod.mk.injEq, and_true]
        omega
      · next hgt =>
        rw [show -(d : Int) + (p : Int) = -((d - p : Nat) : Int) by omega, ih (d - p) (by omega),
          Function.iterate_succ_apply]
        simp only [Option.some.injEq, Prod.mk.injEq, and_true, Nat.cast_add, Nat.cast_one, add_mul, one_mul]
        omega

theorem le_countAfter {c n p : Nat} (hp : 0 < p) : n ≤ c + underflows c n p * p := by
  unfold underflows
  split
  · omega
  · have h := Nat.div_add_mod (n - c + p - 1) p
    have := Nat.mod_lt (n - c + p - 1) hp
    rw [Nat.mul_comm] at h
    omega

theorem countAfter_lt {c n p : Nat} (hp : 0 < p) (h : c < n) : countAfter c n p < p := by
  have h2 := Nat.div_add_mod (n - c + p - 1) p
  have := Nat.mod_lt (n - c + p - 1) hp
  rw [Nat.mul_comm] at h2
  simp only [countAfter, underflows, if_neg (Nat.not_le.2 h)]
  omega

theorem countAfter_le {c n p : Nat} (hp : 0 < p) : countAfter c n p ≤ max c (p - 1) := by
  rcases Nat.lt_or_ge c n with h | h
  · have := countAfter_lt hp h; omega
  · rw [countAfter_of_le h]; omega

/-- What `countDown` does from a count `c - n` with `n` rounds of fuel and a positive reload value: it ends, after
`underflows c n p` rounds, at `countAfter c n p`. -/
theorem countDown_eq {α : Type} {p : Nat} (hp : 0 < p) (f : α → α) (c n : Nat) (a : α) :
    countDown p f n ((c : Int) - n) a = some (((countAfter c n p : Nat) : Int), f^[underflows c n p] a) := by
  rcases Nat.lt_or_ge c n with h | h
  · have hle := le_countAfter (c := c) (n := n) hp
    have hu : underflows c n p = underflows 0 (n - c) p := by
      simp only [underflows, if_neg (Nat.not_le.2 h)]
      rw [if_neg (by omega)]
      simp
    rw [show (c : Int) - n = -((n - c : Nat) : Int) by omega, countDown_of_neg hp f n (n - c) (by omega), ← hu]
    simp only [countAfter, Option.some.injEq, Prod.mk.injEq, and_true]
    have := Int.natCast_mul (underflows c n p) p
    omega
  · rw [underflows_of_le h, countAfter_of_le h]
    cases n with
    | zero => simp [countDown]
    | succ n => rw [countDown, if_neg (by omega)]; simp; omega

/-- With reload value 0 the loop never ends once the count is below zero. -/
theorem countDown_zero {α : Type} (f : α → α) (fuel : Nat) {c : Int} (h : c < 0) (a : α) :
    countDown 0 f fuel c a = none := by
  induction fuel generalizing a with
  | zero => simp [countDown, h]
  | succ fuel ih => simp [countDown, h, ih]

/-- At or above zero the loop does nothing, whatever the reload value. -/
theorem countDown_of_nonneg {α : Type} (p : Nat) (f : α → α) (fuel : Nat) {c : Int} (h : 0 ≤ c) (a : α) :
    countDown p f fuel c a = some (c, a) := by
  cases fuel <;> simp [countDown, Int.not_lt.2 h]

/-! ### The ports -/

/-- Everything the `rst` input can do. -/
theorem resetInstance_eq_next {c r : Nat} {s t : State} :
    resetInstance c r s = .next t ↔
      Admissible (withRates s.cfg c r) ∧
        t = { State.resetTo (withRates s.cfg c r) with inputs := s.inputs } := by
  unfold resetInstance
  split
  · next h => simp [h, eq_comm]
  · next h => simp [h]

theorem execInvalid_eq_next {c : Cause} {s t : State} :
    execInvalid c s = .next t ↔ Admissible s.cfg ∧ t = raiseConfigError c s := by
  rw [execInvalid, whenAdmissible_eq_next, Host.Outcome.next.injEq, eq_comm (b := t)]

theorem execIdle_eq_next {s t : State} : execIdle s = .next t ↔ Admissible s.cfg ∧ t = s := by
  rw [execIdle, whenAdmissible_eq_next, Host.Outcome.next.injEq, eq_comm (b := t)]

/-! ### The generators: what an advance leaves alone -/

@[simp] theorem nextTickCount_channel (cfg : Cfg) (r : Regs) (i : ChannelId) :
    (nextTickCount cfg r).2.channel i = r.channel i := rfl
@[simp] theorem nextTickCount_lfsr (cfg : Cfg) (r : Regs) : (nextTickCount cfg r).2.lfsr = r.lfsr := rfl
@[simp] theorem nextTickCount_noiseCounter (cfg : Cfg) (r : Regs) :
    (nextTickCount cfg r).2.noiseCounter = r.noiseCounter := rfl

/-- The accumulator keeps the remainder: the division leaves less than SAMPLE_RATE, which fits (43_rate_converter.md R141). -/
theorem nextTickCount_tickAcc {cfg : Cfg} (h : Admissible cfg) (r : Regs) :
    (nextTickCount cfg r).2.tickAcc.toNat = (r.tickAcc.toNat + cfg.clockRate) % cfg.sampleRate := by
  obtain ⟨-, ⟨h1, h2⟩, -⟩ := h
  have := Nat.mod_lt (r.tickAcc.toNat + cfg.clockRate) (show cfg.sampleRate > 0 by omega)
  simp only [nextTickCount, BitVec.toNat_ofNat]
  exact Nat.mod_eq_of_lt (by omega)

/-- What a tone advance can do to one channel. -/
theorem advanceChannel_eq_some {n : Nat} {c c' : Channel} (h : advanceChannel n c = some c') :
    ∃ count k, toneCount n c = some (count, k) ∧
      c' = { c with counter := count.toNat, outputBit := toggled c.outputBit k } := by
  obtain ⟨⟨count, k⟩, hk, rfl⟩ := Option.map_eq_some_iff.1 h
  exact ⟨count, k, hk, rfl⟩

/-- What a tone advance can do to the registers: it changes channel `i` alone. -/
theorem toneAdvance_eq_some {i : ChannelId} {n : Nat} {r r' : Regs} (h : toneAdvance i n r = some r') :
    ∃ c, advanceChannel n (r.channel i) = some c ∧ r' = r.setChannel i c := by
  obtain ⟨c, hc, rfl⟩ := Option.map_eq_some_iff.1 h
  exact ⟨c, hc, rfl⟩

/-- What the noise advance can do to the registers: it changes the two noise registers alone. -/
theorem noiseAdvance_eq_some {cfg : Cfg} {n : Nat} {r r' : Regs} (h : noiseAdvance cfg n r = some r') :
    ∃ count x, countDown cfg.noisePeriod (lfsrShift cfg) n ((r.noiseCounter.toNat : Int) - n) r.lfsr = some (count, x) ∧
      r' = { r with noiseCounter := BitVec.ofInt 16 count, lfsr := x } := by
  obtain ⟨⟨count, x⟩, hk, rfl⟩ := Option.map_eq_some_iff.1 h
  exact ⟨count, x, hk, rfl⟩

/-- The noise advance does not touch the channels, nor depends on them. -/
theorem noiseAdvance_setChannel (cfg : Cfg) (n : Nat) (r : Regs) (i : ChannelId) (c : Channel) :
    noiseAdvance cfg n (r.setChannel i c) = (noiseAdvance cfg n r).map (·.setChannel i c) := by
  simp only [noiseAdvance, Option.map_map]
  rfl

/-- The advance of a channel does not touch another channel, nor depends on it. -/
theorem toneAdvance_setChannel {i j : ChannelId} (h : j ≠ i) (n : Nat) (r : Regs) (c : Channel) :
    toneAdvance j n (r.setChannel i c) = (toneAdvance j n r).map (·.setChannel i c) := by
  simp only [toneAdvance, Option.map_map, Regs.channel_setChannel_ne _ _ h]
  cases advanceChannel n (r.channel j)
  · rfl
  · simp [Regs.setChannel_comm r (Ne.symm h)]

/-- What one decimation step can do: the tick count, the noise advance, and an advance of each channel, all by the same
count. -/
theorem decimationStep_eq_some {cfg : Cfg} {r r' : Regs} (h : decimationStep cfg r = some r') :
    ∃ q, noiseAdvance cfg (nextTickCount cfg r).1 (nextTickCount cfg r).2 = some q ∧
      (∀ i, advanceChannel (nextTickCount cfg r).1 (r.channel i) = some (r'.channel i)) ∧
      r'.lfsr = q.lfsr ∧ r'.noiseCounter = q.noiseCounter ∧ r'.tickAcc = q.tickAcc := by
  simp only [decimationStep, advanceAll, Option.bind_eq_some_iff] at h
  obtain ⟨q, hq, a, ha, b, hb, hc⟩ := h
  have hch : ∀ i, q.channel i = r.channel i := by
    obtain ⟨_, _, -, rfl⟩ := noiseAdvance_eq_some hq
    intro i; rfl
  obtain ⟨c0, h0, rfl⟩ := toneAdvance_eq_some ha
  obtain ⟨c1, h1, rfl⟩ := toneAdvance_eq_some hb
  obtain ⟨c2, h2, rfl⟩ := toneAdvance_eq_some hc
  refine ⟨q, hq, fun i => ?_, rfl, rfl, rfl⟩
  fin_cases i <;> simp_all

/-! ### The meanings: what each can do -/

/-- Everything SET_PERIOD can do. -/
theorem execSetPeriod_eq_next {ch : ChannelField} {v : Value} {s t : State} (h : execSetPeriod ch v s = .next t) :
    Admissible s.cfg ∧
      ((ch = 3#2 ∧ t = raiseConfigError .badChannel s) ∨
        ∃ i, ch.toNat = i.val ∧
          t = respond .ok 0 (modifyChannel i (fun c => { c with period := clampPeriod s.cfg ch v }) s)) := by
  obtain ⟨ha, h⟩ := whenAdmissible_eq_next.1 h
  refine ⟨ha, ?_⟩
  split at h
  · next hs => exact .inl ⟨selectChannel_eq_none.1 hs, by simpa using h.symm⟩
  · next i hs => exact .inr ⟨i, selectChannel_eq_some.1 hs, by simpa using h.symm⟩

/-- Everything SET_VOLUME can do. -/
theorem execSetVolume_eq_next {ch : ChannelField} {v : Value} {s t : State} (h : execSetVolume ch v s = .next t) :
    Admissible s.cfg ∧
      ((ch = 3#2 ∧ t = raiseConfigError .badChannel s) ∨
        ∃ i, ch.toNat = i.val ∧
          t = respond .ok 0 (modifyChannel i (fun c => { c with volume := clampVolume v }) s)) := by
  obtain ⟨ha, h⟩ := whenAdmissible_eq_next.1 h
  refine ⟨ha, ?_⟩
  split at h
  · next hs => exact .inl ⟨selectChannel_eq_none.1 hs, by simpa using h.symm⟩
  · next i hs => exact .inr ⟨i, selectChannel_eq_some.1 hs, by simpa using h.symm⟩

/-- Everything SET_MODE can do. -/
theorem execSetMode_eq_next {ch : ChannelField} {v : Value} {s t : State} (h : execSetMode ch v s = .next t) :
    Admissible s.cfg ∧
      ((ch = 3#2 ∧ t = raiseConfigError .badChannel s) ∨
        (ch ≠ 3#2 ∧ 3 < v.toNat ∧ t = raiseConfigError .badMode s) ∨
        ∃ i m, ch.toNat = i.val ∧ m.toNat = v.toNat ∧
          t = respond .ok 0 (modifyChannel i (fun c => { c with mode := m }) s)) := by
  obtain ⟨ha, h⟩ := whenAdmissible_eq_next.1 h
  refine ⟨ha, ?_⟩
  split at h
  · next hs => exact .inl ⟨selectChannel_eq_none.1 hs, by simpa using h.symm⟩
  · next i hs =>
    have hne : ch ≠ 3#2 := fun e => by simp [selectChannel_eq_none.2 e] at hs
    split at h
    · next hm => exact .inr (.inl ⟨hne, modeFlags_eq_none.1 hm, by simpa using h.symm⟩)
    · next m hm =>
      exact .inr (.inr ⟨i, m, selectChannel_eq_some.1 hs, modeFlags_eq_some.1 hm, by simpa using h.symm⟩)

/-- SET_PERIOD on a channel completes. -/
theorem execSetPeriod_of_channel {ch : ChannelField} {i : ChannelId} {s : State} (ha : Admissible s.cfg)
    (h : ch.toNat = i.val) (v : Value) :
    execSetPeriod ch v s =
      .next (respond .ok 0 (modifyChannel i (fun c => { c with period := clampPeriod s.cfg ch v }) s)) := by
  rw [execSetPeriod, whenAdmissible_pos ha, selectChannel_eq_some.2 h]

/-- SET_VOLUME on a channel completes. -/
theorem execSetVolume_of_channel {ch : ChannelField} {i : ChannelId} {s : State} (ha : Admissible s.cfg)
    (h : ch.toNat = i.val) (v : Value) :
    execSetVolume ch v s =
      .next (respond .ok 0 (modifyChannel i (fun c => { c with volume := clampVolume v }) s)) := by
  rw [execSetVolume, whenAdmissible_pos ha, selectChannel_eq_some.2 h]

/-- SET_MODE on a channel, with flags the block knows, completes. -/
theorem execSetMode_of_channel {ch : ChannelField} {i : ChannelId} {s : State} {v : Value} {m : BitVec 2}
    (ha : Admissible s.cfg) (h : ch.toNat = i.val) (hm : m.toNat = v.toNat) :
    execSetMode ch v s = .next (respond .ok 0 (modifyChannel i (fun c => { c with mode := m }) s)) := by
  rw [execSetMode, whenAdmissible_pos ha, selectChannel_eq_some.2 h]
  simp only [modeFlags_eq_some.2 hm]

/-- Everything NEXT_SAMPLE can do when it answers a next state. -/
theorem execNextSample_eq_next {s t : State} (h : execNextSample s = .next t) :
    Admissible s.cfg ∧ ∃ r, decimationStep s.cfg s.regs = some r ∧
      t = respond .ok (mix s.cfg r) { s with regs := r } := by
  obtain ⟨ha, h⟩ := whenAdmissible_eq_next.1 h
  refine ⟨ha, ?_⟩
  split at h
  · simp at h
  · next r hr => exact ⟨r, hr, by simpa using h.symm⟩

/-! ### The step -/

/-- What a step does with the input presented to it. -/
theorem step_present (x : Input) (s : State) :
    step (present x s) =
      match x with
      | .reset c r => resetInstance c r { s with response := none }
      | .command w =>
        match decode w with
        | .error cause => execInvalid cause { s with response := none }
        | .ok i => exec i { s with response := none } := by
  cases x <;> rfl

/-- Everything a step can do when it answers a next state: it freezes, makes a new instance, raises ConfigError, or runs the
decoded command. -/
theorem step_eq_next {s t : State} (h : step s = .next t) :
    (s.inputs = [] ∧ Admissible s.cfg ∧ t = { s with response := none }) ∨
      (∃ c r rest, s.inputs = .reset c r :: rest ∧
        Admissible (withRates s.cfg c r) ∧
        t = { State.resetTo (withRates s.cfg c r) with inputs := rest }) ∨
      (∃ w rest cause, s.inputs = .command w :: rest ∧ decode w = .error cause ∧ Admissible s.cfg ∧
        t = raiseConfigError cause { s with inputs := rest, response := none }) ∨
      ∃ w rest i, s.inputs = .command w :: rest ∧ decode w = .ok i ∧
        exec i { s with inputs := rest, response := none } = .next t := by
  unfold step at h
  rcases hin : s.inputs with _ | ⟨_ | ⟨c, r⟩, rest⟩
  · simp only [takeInput_nil hin, execIdle_eq_next] at h
    exact .inl ⟨rfl, h.1, by simpa [hin] using h.2⟩
  · next w =>
    simp only [takeInput_cons hin] at h
    split at h
    · next cause hd => exact .inr (.inr (.inl ⟨w, rest, cause, rfl, hd, execInvalid_eq_next.1 h⟩))
    · next i hd => exact .inr (.inr (.inr ⟨w, rest, i, rfl, hd, h⟩))
  · simp only [takeInput_cons hin, resetInstance_eq_next] at h
    exact .inr (.inl ⟨c, r, rest, rfl, h⟩)

end Sys2Proof.Machine
end

