-- ==== Sys2Proof/Laws/PerInstr.lean ====
section
/-! SUPPORT. The family of statements made once per instruction: how the word of a command spells its fields. -/

/-- 30_encoding.md R71, R72: the reserved fields of an instruction's word are 0, and `OP` with the two operand fields is its
row of the table. -/
def Sys2Proof.Laws.EncodeFields.Statement (i : Sys2Proof.Instr) : Prop :=
  Sys2Proof.rz1Field (Sys2Proof.encode i) = 0#2 ∧ Sys2Proof.rz2Field (Sys2Proof.encode i) = 0#8 ∧
    (Sys2Proof.opField (Sys2Proof.encode i), Sys2Proof.chField (Sys2Proof.encode i),
        Sys2Proof.valueField (Sys2Proof.encode i)) =
      match i with
      | .setPeriod ch value => (1#4, ch, value)
      | .setVolume ch level => (2#4, ch, level)
      | .setMode ch flags => (3#4, ch, flags)
      | .nextSample => (4#4, 0#2, 0#16)

/-- The word of SET_PERIOD. -/
theorem Sys2Proof.Laws.EncodeFields.setPeriod (ch : Sys2Proof.ChannelField) (value : Sys2Proof.Value) :
    Sys2Proof.Laws.EncodeFields.Statement (.setPeriod ch value) := by
  simp [Statement, encode, fields_commandWord]

/-- The word of SET_VOLUME. -/
theorem Sys2Proof.Laws.EncodeFields.setVolume (ch : Sys2Proof.ChannelField) (level : Sys2Proof.Value) :
    Sys2Proof.Laws.EncodeFields.Statement (.setVolume ch level) := by
  simp [Statement, encode, fields_commandWord]

/-- The word of SET_MODE. -/
theorem Sys2Proof.Laws.EncodeFields.setMode (ch : Sys2Proof.ChannelField) (flags : Sys2Proof.Value) :
    Sys2Proof.Laws.EncodeFields.Statement (.setMode ch flags) := by
  simp [Statement, encode, fields_commandWord]

/-- The word of NEXT_SAMPLE. -/
theorem Sys2Proof.Laws.EncodeFields.nextSample :
    Sys2Proof.Laws.EncodeFields.Statement .nextSample := by
  simp [Statement, encode, fields_commandWord]
end

