-- ==== Sys2Proof/Tests/Slice0.lean ====
section
/-! SUPPORT. Tests, with expected results from spec/95_test_vectors.md and the tables of the rules (written out there, none
taken from the model), and for every statement with hypotheses a state and operands that meet them. -/

namespace Sys2Proof.Tests
open Sys2Proof.Machine Sys2Proof.Claims

/-! ### Helpers -/

def completes : Result → Bool
  | .next _ => true
  | _ => false

/-- The state a step answers, or the reset state where it stops. -/
def after : Result → State
  | .next t => t
  | _ => State.reset

theorem eq_next_after {r : Result} (h : completes r = true) : r = .next (after r) := by
  cases r <;> simp_all [completes, after]

/-- A state from its registers: period, counter, output bit, volume, mode of each channel, then the shared ones. -/
def stateOf (cfg : Cfg) (a b c : Channel) (lfsr noiseCounter : BitVec 16) (tickAcc : BitVec 32) : State where
  cfg := cfg
  regs := { channels := #v[a, b, c], lfsr := lfsr, noiseCounter := noiseCounter, tickAcc := tickAcc }
  inputs := []
  response := none

/-- The step on one command word. -/
def onWord (w : Word) (s : State) : Result := step (present (.command w) s)

/-- What is left of a step: the registers and the response. -/
def outcome (r : Result) : Option (Regs × Option Response) :=
  match r with
  | .next t => some (t.regs, t.response)
  | _ => none

/-- The registers after RESET at 2 000 000 / 48 000, changed by `f` (95_test_vectors.md, part 3). -/
def changed (f : Regs → Regs) (st : Status) (x : Sample) : Option (Regs × Option Response) :=
  some (f State.reset.regs, some ⟨st, x⟩)

/-- The defaults with the other gate rule. -/
def andOrCfg : Cfg := { defaultCfg with gateRule := .andOr }

/-- The defaults with taps (1,2), under which the guard fires (95_test_vectors.md V-N4). -/
def guardCfg (seed : BitVec 16) : Cfg := { defaultCfg with noiseTapA := 1, noiseTapB := 2, noiseSeed := seed }

/-- The defaults with period registers of 8 bits, and of 20 bits at rates for which MIN_PERIOD is 65536. -/
def narrowCfg : Cfg := { defaultCfg with periodBits := 8 }
def wideCfg : Cfg := { defaultsAt 131071 1 with periodBits := 20 }

/-- The defaults with an accumulator that starts at 32000. -/
def accCfg : Cfg := { defaultCfg with accReset := 32000 }

/-- Every channel at full volume with TONE, after RESET. -/
def loud : State :=
  stateOf defaultCfg ⟨123, 0, false, 15, 1⟩ ⟨21, 0, false, 15, 1⟩ ⟨21, 0, false, 15, 1⟩ 1 0 0

/-- One channel mute by volume, one by mode, one by both. -/
def muted : State := stateOf defaultCfg ⟨123, 0, true, 0, 1⟩ ⟨21, 0, true, 15, 0⟩ ⟨21, 0, true, 0, 0⟩ 1 0 0

/-- Channel 0 alone can be heard (95_test_vectors.md P1). -/
def solo : State := stateOf defaultCfg ⟨123, 0, false, 15, 1⟩ ⟨21, 0, false, 0, 0⟩ ⟨21, 0, false, 0, 0⟩ 1 0 0

/-- `loud` but for volumes and modes. -/
def remixed : State := stateOf defaultCfg ⟨123, 0, false, 0, 0⟩ ⟨21, 0, false, 3, 2⟩ ⟨21, 0, false, 15, 3⟩ 1 0 0

/-- `loud` but for channels 1 and 2 and the noise registers. -/
def otherwise : State := stateOf defaultCfg ⟨123, 0, false, 15, 1⟩ ⟨99, 7, true, 3, 2⟩ ⟨50, 9, true, 15, 3⟩ 2 5 0

/-- A state no run reaches: channel 0 has period 0. -/
def zeroPeriod (counter : Nat) : State :=
  stateOf defaultCfg ⟨0, counter, true, 0, 0⟩ ⟨21, 0, true, 0, 0⟩ ⟨21, 0, true, 0, 0⟩ 1 0 0

/-! ### WellFormed: ill-formed terms are refused (60_exceptions.md R167, R170) -/

theorem test_wf_setPeriod_channel_3 : ¬ (Instr.setPeriod 3 100).WellFormed := by decide
theorem test_wf_setVolume_channel_3 : ¬ (Instr.setVolume 3 5).WellFormed := by decide
theorem test_wf_setMode_channel_3_first : (Instr.setMode 3 4).invalidity = some .badChannel := by decide
theorem test_wf_setMode_flags_4 : (Instr.setMode 0 4).invalidity = some .badMode := by decide
theorem test_wf_accepts :
    (Instr.setPeriod 2 0).WellFormed ∧ (Instr.setVolume 2 65535).WellFormed ∧ (Instr.setMode 2 3).WellFormed ∧
      Instr.nextSample.WellFormed := by decide

/-! ### Decoding: words bit by bit from 30_encoding.md R71 and R72 (`OP RZ1 CH RZ2 VALUE`) -/

theorem test_decode_setPeriod :
    decode 0b0001_00_10_00000000_1000000000000001#32 = .ok (.setPeriod 2 0x8001) := by decide
theorem test_decode_setVolume :
    decode 0b0010_00_01_00000000_1111111111111111#32 = .ok (.setVolume 1 0xFFFF) := by decide
theorem test_decode_setMode :
    decode 0b0011_00_00_00000000_0000000000000010#32 = .ok (.setMode 0 2) := by decide
theorem test_decode_nextSample :
    decode 0b0100_00_00_00000000_0000000000000000#32 = .ok .nextSample := by decide

/-- 95_test_vectors.md V-D16 to V-D29, the cause of each rejected word. -/
theorem test_decode_rejects :
    [0x30000004#32, 0x3000FFFF#32].map decode = List.replicate 2 (.error .badMode) ∧
    [0x13000064#32, 0x23000005#32, 0x33000001#32, 0x33000004#32].map decode =
      List.replicate 4 (.error .badChannel) ∧
    [0x00000000#32, 0x50000000#32, 0xF0000000#32, 0x14000010#32, 0x1001007B#32, 0x40000001#32, 0x41000000#32,
      0x43000000#32, 0xFFFFFFFF#32].map decode = List.replicate 9 (.error .badEncoding) := by decide

/-- 30_encoding.md, section 8: the word of each listing, an ill-formed one as it is written (R80). -/
theorem test_encode_examples :
    [.setPeriod 0 123, .setPeriod 2 0, .setVolume 0 15, .setVolume 1 20, .setMode 0 flagTone, .setMode 1 flagNoise,
        .setMode 2 3, .setMode 2 flagNone, .nextSample, .setVolume 3 5, .setMode 0 4].map encode =
      [0x1000007B#32, 0x12000000#32, 0x2000000F#32, 0x21000014#32, 0x30000001#32, 0x31000002#32,
        0x32000003#32, 0x32000000#32, 0x40000000#32, 0x23000005#32, 0x30000004#32] := by decide

/-- The host's entry: a row's word, and words of other lengths (assumption log 13). -/
theorem test_decodeTableWord :
    decodeTableWord 32 0x31000002 = some (.setMode 1 2) ∧ decodeTableWord 32 0x31000004 = none ∧
      decodeTableWord 40 0x40000000 = none := by decide

/-! ### Reset (10_state.md R33) -/

theorem test_reset :
    State.reset =
      stateOf (defaultsAt 2000000 48000) ⟨21, 0, false, 0, 0⟩ ⟨21, 0, false, 0, 0⟩ ⟨21, 0, false, 0, 0⟩ 1 0 0 := by
  decide

theorem test_withFetchWord_runs :
    outcome (step (State.reset.withFetchWord 32 0x2000000F)) =
      changed (·.setChannel 0 ⟨21, 0, false, 15, 0⟩) .ok 0 := by decide

/-! ### One step per command (95_test_vectors.md V-D) -/

/-- V-D2, V-D3, V-D4, V-D5, V-D6: the clamp at 21. -/
theorem test_setPeriod_clamps :
    outcome (onWord 0x12000000#32 State.reset) = changed id .ok 0 ∧
    outcome (onWord 0x11000014#32 State.reset) = changed id .ok 0 ∧
    outcome (onWord 0x11000015#32 State.reset) = changed id .ok 0 ∧
    outcome (onWord 0x11000016#32 State.reset) = changed (·.setChannel 1 ⟨22, 0, false, 0, 0⟩) .ok 0 ∧
    outcome (onWord 0x1000FFFF#32 State.reset) = changed (·.setChannel 0 ⟨65535, 0, false, 0, 0⟩) .ok 0 := by decide

/-- P4, word 13: the new period is below the counter, which stays; so does the output bit. -/
theorem test_setPeriod_keeps_phase :
    (outcome (onWord 0x1000001E#32
      (stateOf defaultCfg ⟨100, 34, true, 15, 1⟩ ⟨150, 134, false, 8, 3⟩ ⟨1000, 834, true, 3, 2⟩
        0x4020 10 32000))).map Prod.fst =
    some (stateOf defaultCfg ⟨30, 34, true, 15, 1⟩ ⟨150, 134, false, 8, 3⟩ ⟨1000, 834, true, 3, 2⟩
      0x4020 10 32000).regs := by decide

/-- V-D7, V-D8, V-D10: the clamp at 15, of the whole unsigned operand. -/
theorem test_setVolume_clamps :
    outcome (onWord 0x2000000F#32 State.reset) = changed (·.setChannel 0 ⟨21, 0, false, 15, 0⟩) .ok 0 ∧
    outcome (onWord 0x20000010#32 State.reset) = changed (·.setChannel 0 ⟨21, 0, false, 15, 0⟩) .ok 0 ∧
    outcome (onWord 0x2200FFFF#32 State.reset) = changed (·.setChannel 2 ⟨21, 0, false, 15, 0⟩) .ok 0 := by decide

/-- V-D14, V-D15, V-D16: the flags replace the old ones (40_tone_channel.md R92); flags 4 are rejected. -/
theorem test_setMode :
    outcome (onWord 0x31000002#32 State.reset) = changed (·.setChannel 1 ⟨21, 0, false, 0, 2⟩) .ok 0 ∧
    outcome (onWord 0x32000003#32 State.reset) = changed (·.setChannel 2 ⟨21, 0, false, 0, 3⟩) .ok 0 ∧
    outcome (onWord 0x30000004#32 State.reset) = changed id .configError 0 ∧
    ((after (onWord 0x30000002#32 loud)).regs.channel 0).mode = 2 := by decide

/-- V-D30. -/
theorem test_nextSample_from_reset :
    outcome (onWord 0x40000000#32 State.reset) =
      some ((stateOf defaultCfg ⟨21, 1, false, 0, 0⟩ ⟨21, 1, false, 0, 0⟩ ⟨21, 1, false, 0, 0⟩
        0x2000 7 32000).regs, some ⟨.ok, 0x8008⟩) := by decide

/-- P4, word 15, under both gate rules: samples 0xBE98 and 0x9118, from the state of word 14. -/
theorem test_nextSample_three_channels :
    (outcome (onWord 0x40000000#32 (stateOf defaultCfg ⟨30, 22, true, 15, 1⟩ ⟨150, 92, false, 8, 3⟩
      ⟨1000, 792, true, 3, 2⟩ 0x1008 0 16000))) =
      some ((stateOf defaultCfg ⟨30, 10, false, 15, 1⟩ ⟨150, 50, false, 8, 3⟩ ⟨1000, 750, true, 3, 2⟩
        0x0201 6 0).regs, some ⟨.ok, 0xBE98⟩) ∧
    (outcome (onWord 0x40000000#32 (stateOf andOrCfg ⟨30, 22, true, 15, 1⟩ ⟨150, 92, false, 8, 3⟩
      ⟨1000, 792, true, 3, 2⟩ 0x1008 0 16000))).map Prod.snd = some (some ⟨.ok, 0x9118⟩) := by decide

/-- V-D22 to V-D29: a rejected word, `NEXT_SAMPLE` with operands among them, changes nothing. -/
theorem test_rejected_word :
    outcome (onWord 0x40000001#32 loud) = some (loud.regs, some ⟨.configError, 0⟩) ∧
    outcome (onWord 0x43000000#32 loud) = some (loud.regs, some ⟨.configError, 0⟩) := by decide

/-- 00_scope.md R8, `PERIOD_BITS` 8 and 20, by hand: `PERIOD_MAX` 255 is stored, and MIN_PERIOD 65536 is loaded by RESET and
stored for every smaller operand. -/
theorem test_setPeriod_other_widths :
    ((after (onWord 0x100000FF#32 (State.resetTo narrowCfg))).regs.channel 0).period = 255 ∧
    ((State.resetTo wideCfg).regs.channel 0).period = 65536 ∧
    ((after (onWord 0x1000FFFF#32 (State.resetTo wideCfg))).regs.channel 0).period = 65536 := by decide

/-- 00_scope.md R8, `ACC_RESET` 32000, by hand: the first sample is V-R1's second, `t = 2 032 000`, `n = 42`. -/
theorem test_acc_reset :
    tickCounts accCfg 3 (State.resetTo accCfg).regs = [42, 42, 41] ∧
    (after (onWord 0x40000000#32 (State.resetTo accCfg))).regs.tickAcc = 16000 := by decide

/-- 44_sample_engine.md R155: RESET at other rates; MIN_PERIOD is 1 at 48 000 / 48 000. -/
theorem test_reset_input :
    step (present (.reset 48000 48000) loud) = .next (State.resetTo (defaultsAt 48000 48000)) ∧
    ((State.resetTo (defaultsAt 48000 48000)).regs.channel 2).period = 1 := ⟨rfl, by decide⟩

/-! ### The generators as functions -/

/-- V-T3 to V-T7, V-T12, V-T14, V-T15, V-T18, and the loop's `(0, 1, 1, 3) → (0, 0, 3)`. -/
theorem test_tone_advance :
    [(1, ⟨123, 0, false, 0, 0⟩), (5, ⟨123, 5, false, 0, 0⟩), (6, ⟨123, 5, false, 0, 0⟩), (41, ⟨21, 0, false, 0, 0⟩),
        (42, ⟨21, 0, false, 0, 0⟩), (42, ⟨30, 100, false, 0, 0⟩), (42, ⟨30, 16, true, 0, 0⟩),
        (41, ⟨65535, 0, false, 0, 0⟩), (2, ⟨1, 0, false, 0, 0⟩), (3, ⟨1, 0, true, 0, 0⟩)].map
      (fun x : Nat × Channel => (advanceChannel x.1 x.2).map fun c => (c.counter, c.outputBit)) =
    [some (122, true), some (0, false), some (122, true), some (1, false), some (0, false), some (58, false),
      some (4, false), some (65494, true), some (0, false), some (0, false)] := by decide

/-- V-N2: single shifts under the default taps. -/
theorem test_lfsr_shift :
    [0x0001#16, 0x8000#16, 0x0080#16, 0x0081#16, 0xFFFF#16, 0x0100#16, 0x0201#16].map (lfsrShift defaultCfg) =
      [0x8000#16, 0x4000#16, 0x8040#16, 0x0040#16, 0x7FFF#16, 0x0080#16, 0x8100#16] := by decide

/-- V-N4: the guard, and other shifts, under taps (1,2). -/
theorem test_lfsr_guard :
    lfsrShift (guardCfg 0x0001) 0x0001 = 0x0001 ∧
    [0x0001#16, 0x8000#16, 0x0002#16, 0x0006#16].map (lfsrShift (guardCfg 0xACE1)) =
      [0xACE1#16, 0x4000#16, 0x8001#16, 0x0003#16] := by decide

/-- V-N3: the noise advance. -/
theorem test_noise_advance :
    [(0x0001, 0, 0), (0x0001, 0, 1), (0x0001, 0, 16), (0x0001, 0, 17), (0x0001, 0, 41), (0x2000, 7, 42),
        (0x0400, 13, 42), (0x8000, 15, 15), (0x8000, 15, 16)].map
      (fun x : BitVec 16 × BitVec 16 × Nat =>
        (noiseAdvance defaultCfg x.2.2 { State.reset.regs with lfsr := x.1, noiseCounter := x.2.1 }).map
          fun r => (r.lfsr, r.noiseCounter)) =
    [some (0x0001, 0), some (0x8000, 15), some (0x8000, 0), some (0x4000, 15), some (0x2000, 7), some (0x0400, 13),
      some (0x0100, 3), some (0x8000, 0), some (0x4000, 15)] := by decide

/-- V-R1 to V-R4 and V-R6: the tick counts of the first samples, and MIN_PERIOD. -/
theorem test_tick_counts :
    tickCounts (defaultsAt 2000000 48000) 6 State.reset.regs = [41, 42, 42, 41, 42, 42] ∧
    tickCounts (defaultsAt 1 3) 6 State.reset.regs = [0, 0, 1, 0, 0, 1] ∧
    tickCounts (defaultsAt 3 2) 4 State.reset.regs = [1, 2, 1, 2] ∧
    tickCounts (defaultsAt 1789773 44100) 8 State.reset.regs = [40, 41, 40, 41, 40, 41, 41, 40] ∧
    minPeriod (defaultsAt 5 2) = 2 ∧ minPeriod (defaultsAt 1789773 44100) = 21 := by decide

/-- V-M1: samples by their sum, under SCALE 728 and MAX_SUM 45. -/
theorem test_quantize :
    [0, 1, 15, 22, 23, 45].map (quantize defaultCfg) = [-32760, -31304, -10920, -728, 728, 32760] ∧
      scale defaultCfg = 728 ∧ maxSum defaultCfg = 45 := by decide

/-- V-M2: mode 3 under both rules, the two rows in which they differ first. -/
theorem test_gate_both :
    [(false, true), (true, false), (false, false), (true, true)].map (fun x => (gate .or 3 x.1 x.2, gate .andOr 3 x.1 x.2))
      = [(true, false), (true, false), (false, false), (true, true)] := by decide

/-- V-M3a, V-M3d, V-M3j: the mixer on whole register files. -/
theorem test_mix :
    mix defaultCfg (stateOf defaultCfg ⟨21, 0, true, 15, 1⟩ ⟨21, 0, true, 15, 1⟩ ⟨21, 0, true, 15, 1⟩ 0x10 0 0).regs =
      0x7FF8 ∧
    mix defaultCfg (stateOf defaultCfg ⟨21, 0, true, 15, 1⟩ ⟨21, 0, true, 8, 1⟩ ⟨21, 0, true, 0, 1⟩ 1 0 0).regs =
      0x02D8 ∧
    mix defaultCfg (stateOf defaultCfg ⟨21, 0, false, 15, 1⟩ ⟨21, 0, true, 8, 3⟩ ⟨21, 0, true, 3, 2⟩ 2 0 0).regs =
      0xAD88 ∧
    mix andOrCfg (stateOf defaultCfg ⟨21, 0, false, 15, 1⟩ ⟨21, 0, true, 8, 3⟩ ⟨21, 0, true, 3, 2⟩ 2 0 0).regs =
      0x8008 := by decide

/-! ### Witnesses: for every statement with hypotheses, something that meets them -/

/-- Admissible configurations at the edges of 00_scope.md R9, and ones just beyond. For every statement about RESET or a run
from it: ResetLoadsTheResetValues, ResetMeetsTheInvariant, TickTotalsNeverDrift, AccumulatorDependsOnSampleCountAlone,
SampleNeverWraps, SilentUntilConfigured, RunsAreReproducible. -/
theorem witness_admissible :
    Admissible (defaultsAt 1 1) ∧ Admissible (defaultsAt 131070 1) ∧ Admissible (defaultsAt 1 4294967295) ∧
    Admissible (defaultsAt 4294967295 4294967295) ∧ Admissible andOrCfg ∧ Admissible narrowCfg ∧ Admissible wideCfg ∧
    Admissible { defaultsAt 1 1 with periodBits := 1 } ∧ ¬ Admissible { defaultsAt 1 1 with periodBits := 0 } ∧
    Admissible { defaultCfg with accReset := 47999 } ∧ ¬ Admissible { defaultCfg with accReset := 48000 } ∧
    Admissible (guardCfg 0xACE1) ∧
    ¬ Admissible (defaultsAt 131071 1) ∧ ¬ Admissible (defaultsAt 0 1) ∧ ¬ Admissible (defaultsAt 1 0) ∧
    ¬ Admissible (guardCfg 0) := by decide

theorem witness_RstMakesANewInstance :
    ({ loud with inputs := [.reset 131070 1] } : State).inputs = .reset 131070 1 :: [] ∧
    Admissible (withRates loud.cfg 131070 1) ∧ ¬ Admissible (withRates loud.cfg 131071 1) := by decide

/-- SetPeriodStoresTheClampedPeriod, SetVolumeStoresTheClampedLevel: channel 3, and the first and last channel; the largest
operand of a 16-bit and of an 8-bit period register. -/
theorem witness_channels :
    Admissible State.reset.cfg ∧ (3 : ChannelField) = 3 ∧ (0 : ChannelField).toNat = (0 : ChannelId).val ∧
    (2 : ChannelField).toNat = (2 : ChannelId).val ∧ (65535 : Value).toNat ≤ periodMax State.reset.cfg ∧
    (255 : Value).toNat ≤ periodMax narrowCfg := by decide

/-- One more than an 8-bit period register can hold. -/
theorem witness_SetPeriodBeyondTheRegister :
    Admissible (State.resetTo narrowCfg).cfg ∧ (0 : ChannelField).toNat = (0 : ChannelId).val ∧
    periodMax (State.resetTo narrowCfg).cfg < (256 : Value).toNat := by decide

/-- SET_MODE: flags 4 are out, flags 3 are in. -/
theorem witness_SetModeStoresTheFlags :
    3 < (4 : Value).toNat ∧ (2 : ChannelField).toNat = (2 : ChannelId).val ∧ (3 : Value).toNat ≤ 3 := by decide

/-- A configuration command that completes and leaves channel 1 alone; one that is rejected. -/
theorem witness_ConfigurationKeepsThePhase :
    (∃ t, Instr.setPeriod 0 123 ≠ .nextSample ∧ exec (.setPeriod 0 123) loud = .next t) ∧
    (∃ t, Instr.setMode 3 1 ≠ .nextSample ∧ exec (.setMode 3 1) loud = .next t) ∧
    ∀ k ch, target (.setPeriod 0 123) = some (k, ch) → ch.toNat ≠ (1 : ChannelId).val :=
  ⟨⟨_, by decide, eq_next_after (by decide)⟩, ⟨_, by decide, eq_next_after (by decide)⟩, by
    rintro k ch h; cases h; decide⟩

theorem witness_ConfigurationIsIdempotent :
    ∃ t, Instr.setVolume 1 20 ≠ .nextSample ∧ exec (.setVolume 1 20) loud = .next t :=
  ⟨_, by decide, eq_next_after (by decide)⟩

theorem witness_ConfigurationCommandsCommute :
    Admissible loud.cfg ∧ Instr.setPeriod 0 123 ≠ .nextSample ∧ Instr.setMode 0 1 ≠ .nextSample ∧
    target (.setPeriod 0 123) ≠ target (.setMode 0 1) ∧ target (.setPeriod 0 123) ≠ target (.setPeriod 1 123) := by decide

theorem witness_StepRunsTheDecodedCommand :
    (State.reset.withFetchWord 32 0x1000007B).inputs = .command 0x1000007B#32 :: [] ∧
    decode 0x1000007B#32 = .ok (.setPeriod 0 123) := by decide

theorem witness_RejectedWordRaisesConfigError :
    Admissible loud.cfg ∧ (present (.command 0x50000000#32) loud).inputs = .command 0x50000000#32 :: [] ∧
    decode 0x50000000#32 = .error .badEncoding ∧ decode 0x33000004#32 = .error .badChannel ∧
    decode 0x30000004#32 = .error .badMode := by decide

theorem witness_NoCommandFreezesTheBlock : Admissible loud.cfg ∧ loud.inputs = [] := by decide

theorem witness_InadmissibleConfigurationIsRefused :
    ¬ Admissible (State.resetTo (defaultsAt 131071 1)).cfg ∧
    (∀ c r rest, (State.resetTo (defaultsAt 131071 1)).inputs ≠ .reset c r :: rest) ∧
    ∀ c r rest, (present (.command 0x40000000#32) (State.resetTo (defaultsAt 131071 1))).inputs ≠ .reset c r :: rest := by
  refine ⟨by decide, ?_, ?_⟩ <;> intro c r rest h <;> simp at h

theorem witness_EveryWordGetsItsResponse :
    loud.Inv ∧ (present (.command nextSampleWord) loud).inputs = .command nextSampleWord :: [] ∧
    decode nextSampleWord = .ok .nextSample ∧ decode 0x50000000#32 ≠ .ok .nextSample := by decide

theorem witness_OnlyRstChangesTheConfiguration :
    ∃ t u, step (present (.reset 131070 1) loud) = .next t ∧ t.cfg ≠ loud.cfg ∧ onWord 0x1000007B#32 loud = .next u :=
  ⟨_, _, eq_next_after (by decide), by decide, eq_next_after (by decide)⟩

/-- NEXT_SAMPLE changes each of the five kinds of register; so can `rst`. -/
theorem witness_OnlyNextSampleAdvances :
    ∃ t u, onWord nextSampleWord loud = .next t ∧ t.regs.lfsr ≠ loud.regs.lfsr ∧
      t.regs.noiseCounter ≠ loud.regs.noiseCounter ∧ t.regs.tickAcc ≠ loud.regs.tickAcc ∧
      (t.regs.channel 0).counter ≠ (loud.regs.channel 0).counter ∧
      (t.regs.channel 0).outputBit ≠ (loud.regs.channel 0).outputBit ∧
      step (present (.reset 1 1) t) = .next u ∧ u.regs.lfsr ≠ t.regs.lfsr :=
  ⟨_, _, eq_next_after (by decide), by decide, by decide, by decide, by decide, by decide, eq_next_after (by decide),
    by decide⟩

theorem witness_ControlRegistersHaveOneWriter :
    ∃ t u v, onWord 0x10000015#32 loud = .next t ∧ (t.regs.channel 0).period ≠ (loud.regs.channel 0).period ∧
      onWord 0x20000000#32 loud = .next u ∧ (u.regs.channel 0).volume ≠ (loud.regs.channel 0).volume ∧
      onWord 0x30000003#32 loud = .next v ∧ (v.regs.channel 0).mode ≠ (loud.regs.channel 0).mode ∧
      ∀ w c r rest, (present (.command w) loud).inputs ≠ .reset c r :: rest :=
  ⟨_, _, _, eq_next_after (by decide), by decide, eq_next_after (by decide), by decide, eq_next_after (by decide),
    by decide, by intro w c r rest h; simp at h⟩

/-- A word for each clause of the decoder, the fields read by arithmetic. -/
theorem witness_DecoderFollowsItsSteps :
    (rz1Of 0x14000010#32 ≠ 0 ∧ rz2Of 0x1001007B#32 ≠ 0 ∧ opOf 0x00000000#32 = 0 ∧ opOf 0x50000000#32 = 5 ∧
      (opOf 0x40000001#32 = 4 ∧ valueOf 0x40000001#32 ≠ 0) ∧ opOf 0x41000000#32 = 4 ∧ chOf 0x41000000#32 ≠ 0) ∧
    ([0x40000000#32, 0x13000064#32, 0x30000004#32, 0x1000FFFF#32, 0x22000000#32, 0x32000003#32].map
      fun w => (rz1Of w, rz2Of w, opOf w, chOf w, valueOf w)) =
      [(0, 0, 4, 0, 0), (0, 0, 1, 3, 100), (0, 0, 3, 0, 4), (0, 0, 1, 0, 65535), (0, 0, 2, 2, 0), (0, 0, 3, 2, 3)] := by
  decide

theorem witness_DecoderFollowsItsSteps_invalid :
    Admissible loud.cfg ∧ decode 0x50000000#32 = .error .badEncoding := by decide

/-- The word of an opcode-4 command with operands. -/
theorem witness_NextSampleAdvancesAndMixes :
    loud.Inv ∧ opOf 0x43000000#32 = 4 ∧ 0x43000000#32 ≠ nextSampleWord := by decide

theorem witness_AcceptedWordIsItsEncoding :
    decode 0x12000000#32 = .ok (.setPeriod 2 0) ∧ decode 0x40000000#32 = .ok .nextSample := by decide

theorem witness_BadEncodingSelectsNoRow :
    decode 0x50000000#32 = .error .badEncoding ∧ decode 0x32000003#32 = .ok (.setMode 2 3) ∧
    (0x30000001#32, 0xFCFF0000#32) ∉ tableRows ∧ (0x30000000#32, 0xFCFF0000#32) ∈ tableRows ∧
    0x32000003#32 &&& 0xFCFF0000#32 = 0x30000000#32 := by decide

theorem witness_MinPeriodIsTheCeiling :
    1 ≤ (defaultsAt 5 2).clockRate ∧ 1 ≤ (defaultsAt 5 2).sampleRate ∧
    minPeriod (defaultsAt 5 2) ≤ 2 ∧ ¬ minPeriod (defaultsAt 5 2) ≤ 1 := by decide

/-- The accumulator at both ends of its range; a quotient, and one more. -/
theorem witness_TickCountIsQuotientOrOneMore :
    Admissible loud.cfg ∧ loud.regs.tickAcc.toNat ≤ loud.cfg.sampleRate - 1 ∧
    ({ loud.regs with tickAcc := 47999 } : Regs).tickAcc.toNat ≤ loud.cfg.sampleRate - 1 ∧
    ¬ loud.cfg.sampleRate ≤ 0 + loud.cfg.clockRate % loud.cfg.sampleRate ∧
    loud.cfg.sampleRate ≤ 47999 + loud.cfg.clockRate % loud.cfg.sampleRate := by decide

/-- ToneAdvanceHasItsClosedForm, ToneAdvanceIsTickByTick: a period of 1, the largest counter, and tick counts on both sides of
it. -/
theorem witness_tone :
    1 ≤ (⟨1, 65535, false, 0, 0⟩ : Channel).period ∧ 65535 ≤ (⟨1, 65535, false, 0, 0⟩ : Channel).counter ∧
    (⟨1, 65535, false, 0, 0⟩ : Channel).counter < 65536 := by decide

/-- States with the invariant: after RESET, and with counters above their periods and every other register at an edge; one
without. For AtMostTwoTogglesPerSample, NoiseAdvanceHasItsClosedForm, NoiseAdvanceIsTickByTick, NextSampleAdvancesAndMixes,
MachineRefinesTheClosedForm, RejectedWordsCanBeErased. -/
theorem witness_invariant :
    loud.Inv ∧ (State.resetTo (defaultsAt 131070 1)).Inv ∧
    (stateOf defaultCfg ⟨30, 34, true, 15, 1⟩ ⟨150, 134, false, 8, 3⟩ ⟨1000, 65534, true, 3, 2⟩ 0x4020 15 47999).Inv ∧
    ¬ (stateOf defaultCfg ⟨20, 34, true, 15, 1⟩ ⟨150, 134, false, 8, 3⟩ ⟨1000, 834, true, 3, 2⟩ 0x4020 10 32000).Inv := by
  decide

/-- NEXT_SAMPLE, and a SET_PERIOD that keeps the period above the counter (95_test_vectors.md P1). -/
theorem witness_CounterStaysBelowItsPeriod :
    (∃ t, loud.Inv ∧ exec .nextSample loud = .next t) ∧
    (∃ t, exec (.setPeriod 0 124) loud = .next t ∧ (loud.regs.channel 0).period ≤ (t.regs.channel 0).period) ∧
    (loud.regs.channel 0).counter < (loud.regs.channel 0).period :=
  ⟨⟨_, by decide, eq_next_after (by decide)⟩, ⟨_, eq_next_after (by decide), by decide⟩, by decide⟩

theorem witness_SquareWaveIsExact :
    1 ≤ (⟨3, 0, false, 0, 0⟩ : Channel).period ∧
    (∃ j, 0 + 1 = (⟨3, 0, false, 0, 0⟩ : Channel).counter + 1 + j * 3) ∧
    ∃ j, 3 + 1 = (⟨3, 0, false, 0, 0⟩ : Channel).counter + 1 + j * 3 := ⟨by decide, ⟨0, by decide⟩, ⟨1, by decide⟩⟩

theorem witness_NewPeriodWaitsForTheReload :
    Admissible loud.cfg ∧ (0 : ChannelField).toNat = (0 : ChannelId).val ∧ 0 ≤ (loud.regs.channel 0).counter := by
  decide

theorem witness_LfsrShiftsRightAndIsGuarded :
    lfsrRaw defaultCfg 0x0001 ≠ 0 ∧ lfsrRaw (guardCfg 0xACE1) 0x0001 = 0 := by decide

theorem witness_UnguardedShiftPermutesIffATapIsBitZero :
    defaultCfg.noiseTapA ≠ defaultCfg.noiseTapB ∧ defaultCfg.noiseTapA = 0 ∧
    (guardCfg 1).noiseTapA ≠ (guardCfg 1).noiseTapB ∧ (guardCfg 1).noiseTapA ≠ 0 ∧ (guardCfg 1).noiseTapB ≠ 0 ∧
    (0x8000 : BitVec 16) ≠ 0 := by decide

theorem witness_NoiseIgnoresConfigurationCommands :
    Admissible defaultCfg ∧
    [0x1000007B#32, nextSampleWord, 0x50000000#32].count nextSampleWord = [nextSampleWord].count nextSampleWord := by
  decide

theorem witness_MutedChannelsGiveSilence :
    muted.Inv ∧ ∀ i, (muted.regs.channel i).volume = 0 ∨ (muted.regs.channel i).mode = 0 := by decide

theorem witness_OneChannelIsBilevel :
    solo.Inv ∧ ∀ j, j ≠ 0 → (solo.regs.channel j).volume = 0 ∨ (solo.regs.channel j).mode = 0 := by decide

theorem witness_GateFollowsItsTables : (muted.regs.channel 1).mode = 0 ∧ (muted.regs.channel 1).outputBit = true := by decide

theorem witness_NextSampleKeepsTheControlRegisters : ∃ t, exec .nextSample loud = .next t :=
  ⟨_, eq_next_after (by decide)⟩

/-- A channel of period 0: it underflows at a counter of 40 under 41 ticks, and does not at 41. -/
theorem witness_NextSampleStopsOnlyOnAZeroPeriod :
    Admissible (zeroPeriod 40).cfg ∧
    (∃ i, ((zeroPeriod 40).regs.channel i).period = 0 ∧
      ((zeroPeriod 40).regs.channel i).counter < ticksOf (zeroPeriod 40).cfg (zeroPeriod 40).regs) ∧
    ∀ i, ((zeroPeriod 41).regs.channel i).period = 0 →
      ticksOf (zeroPeriod 41).cfg (zeroPeriod 41).regs ≤ ((zeroPeriod 41).regs.channel i).counter := by decide

/-- No tick, as many ticks as the period, one tick more than the period. -/
theorem witness_FirstSampleShowsTheFirstToggle :
    Admissible (defaultsAt 1 3) ∧ ¬ 1 ≤ ((defaultsAt 1 3).accReset + (defaultsAt 1 3).clockRate) / (defaultsAt 1 3).sampleRate ∧
    Admissible defaultCfg ∧ (1 : ChannelField).toNat = (1 : ChannelId).val ∧ (41 : Value).toNat ≤ periodMax defaultCfg ∧
    (defaultCfg.accReset + defaultCfg.clockRate) / defaultCfg.sampleRate = max (41 : Value).toNat (minPeriod defaultCfg) ∧
    ¬ (defaultCfg.accReset + defaultCfg.clockRate) / defaultCfg.sampleRate ≤
      max (40 : Value).toNat (minPeriod defaultCfg) := by decide

theorem witness_ZeroTickSampleMovesOnlyTheAccumulator :
    (State.resetTo (defaultsAt 1 3)).Inv ∧
    (State.resetTo (defaultsAt 1 3)).regs.tickAcc.toNat + (defaultsAt 1 3).clockRate < (defaultsAt 1 3).sampleRate := by
  decide

theorem witness_AdvancesCommute : (0 : ChannelId) ≠ 2 := by decide

theorem witness_VolumeAndModeDoNotStopAnything :
    loud.Inv ∧ remixed.Inv ∧ loud.cfg = remixed.cfg ∧ loud.regs.lfsr = remixed.regs.lfsr ∧
    loud.regs.noiseCounter = remixed.regs.noiseCounter ∧ loud.regs.tickAcc = remixed.regs.tickAcc ∧ loud ≠ remixed ∧
    ∀ i, (loud.regs.channel i).period = (remixed.regs.channel i).period ∧
      (loud.regs.channel i).counter = (remixed.regs.channel i).counter ∧
      (loud.regs.channel i).outputBit = (remixed.regs.channel i).outputBit := by decide

theorem witness_ChannelsAreIndependent :
    loud.Inv ∧ otherwise.Inv ∧ loud.cfg = otherwise.cfg ∧ loud.regs.tickAcc = otherwise.regs.tickAcc ∧
    loud ≠ otherwise ∧ loud.regs.channel 0 = otherwise.regs.channel 0 := by decide

theorem witness_StepKeepsTheInvariant :
    loud.Inv ∧ (∃ t, onWord nextSampleWord loud = .next t) ∧ ∃ t, step (present (.reset 131070 1) loud) = .next t :=
  ⟨by decide, ⟨_, eq_next_after (by decide)⟩, ⟨_, eq_next_after (by decide)⟩⟩

theorem witness_EveryReachableStateHasTheInvariant :
    Admissible defaultCfg ∧
    ∃ t, runInputs [.command 0x1000007B#32, .reset 48000 48000, .command nextSampleWord] (State.resetTo defaultCfg) =
      .next t := ⟨by decide, _, eq_next_after (by decide)⟩

/-- No pending input, a command, and a `rst` to the largest admissible quotient. -/
theorem witness_NothingStopsTheBlock :
    loud.Inv ∧ (∀ c r rest, loud.inputs = .reset c r :: rest → Admissible (withRates loud.cfg c r)) ∧
    ∀ c r rest, (present (.reset 131070 1) loud).inputs = .reset c r :: rest → Admissible (withRates loud.cfg c r) := by
  refine ⟨by decide, ?_, ?_⟩ <;> intro c r rest h
  · exact absurd h (by simp [loud, stateOf])
  · simp only [present_inputs, List.cons.injEq, Input.reset.injEq] at h
    obtain ⟨⟨rfl, rfl⟩, -⟩ := h
    decide

end Sys2Proof.Tests
end

section
/-! PROOFS. The scope of the block (00_scope.md): the configuration is fixed between two RESETs (R10), an inadmissible one has
no behaviour (R9), and a period register may be narrower than the operand (R8). -/

namespace Sys2Proof.Machine
open Sys2Proof.Claims

/-! ### The dispatch and the step, one equation per case -/

@[simp] theorem exec_setPeriod (ch : ChannelField) (v : Value) (s : State) :
    exec (.setPeriod ch v) s = execSetPeriod ch v s := rfl

@[simp] theorem exec_setVolume (ch : ChannelField) (v : Value) (s : State) :
    exec (.setVolume ch v) s = execSetVolume ch v s := rfl

@[simp] theorem exec_setMode (ch : ChannelField) (v : Value) (s : State) :
    exec (.setMode ch v) s = execSetMode ch v s := rfl

@[simp] theorem exec_nextSample (s : State) : exec .nextSample s = execNextSample s := rfl

theorem step_of_no_input {s : State} (h : s.inputs = []) : step s = execIdle { s with response := none } := by
  rw [step, takeInput_nil h]

theorem step_of_rst {s : State} {c r : Nat} {rest : List Input} (h : s.inputs = .reset c r :: rest) :
    step s = resetInstance c r { s with inputs := rest, response := none } := by
  rw [step, takeInput_cons h]

theorem step_of_rejected {s : State} {w : Word} {rest : List Input} {cause : Cause}
    (h : s.inputs = .command w :: rest) (hd : decode w = .error cause) :
    step s = execInvalid cause { s with inputs := rest, response := none } := by
  simp only [step, takeInput_cons h, hd]

theorem step_of_decoded {s : State} {w : Word} {rest : List Input} {i : Instr}
    (h : s.inputs = .command w :: rest) (hd : decode w = .ok i) :
    step s = exec i { s with inputs := rest, response := none } := by
  simp only [step, takeInput_cons h, hd]

/-! ### The configuration between two RESETs -/

/-- No command changes the configuration (00_scope.md R10). -/
theorem exec_keeps_cfg {i : Instr} {s t : State} (h : exec i s = .next t) : t.cfg = s.cfg := by
  cases i with
  | setPeriod ch v => obtain ⟨-, ⟨-, rfl⟩ | ⟨_, -, rfl⟩⟩ := execSetPeriod_eq_next h <;> rfl
  | setVolume ch v => obtain ⟨-, ⟨-, rfl⟩ | ⟨_, -, rfl⟩⟩ := execSetVolume_eq_next h <;> rfl
  | setMode ch v =>
    obtain ⟨-, ⟨-, rfl⟩ | ⟨-, -, rfl⟩ | ⟨_, _, -, -, rfl⟩⟩ := execSetMode_eq_next h <;> rfl
  | nextSample => obtain ⟨-, _, -, rfl⟩ := execNextSample_eq_next h; rfl

/-- Settles O15, along the four things a step can do. -/
theorem onlyRstChangesTheConfiguration : Obligations.OnlyRstChangesTheConfiguration := by
  intro s t h
  obtain ⟨hin, -, rfl⟩ | ⟨c, r, rest, hin, -, rfl⟩ | ⟨w, rest, cause, hin, -, -, rfl⟩ | ⟨w, rest, i, hin, -, hx⟩ :=
    step_eq_next h
  · simp only [hin]
  · simp only [hin, resetTo_cfg]
  · simp only [hin, raiseConfigError_cfg]
  · simp only [hin, exec_keeps_cfg hx]

/-! ### An inadmissible configuration -/

/-- Every meaning is guarded by the admissibility of the configuration (00_scope.md R9). -/
theorem exec_of_not_admissible {s : State} (h : ¬ Admissible s.cfg) (i : Instr) :
    exec i s = .refused .inadmissibleConfiguration := by
  cases i <;> exact whenAdmissible_neg h _

/-- Every step that is not `rst` is guarded the same way: an idle one, a rejected word and a decoded command. -/
theorem step_of_not_admissible {s : State} (h : ¬ Admissible s.cfg)
    (hrst : ∀ c r rest, s.inputs ≠ .reset c r :: rest) :
    step s = .refused .inadmissibleConfiguration := by
  rcases hin : s.inputs with _ | ⟨w | ⟨c, r⟩, rest⟩
  · rw [step_of_no_input hin]
    exact whenAdmissible_neg h _
  · cases hd : decode w with
    | error cause =>
      rw [step_of_rejected hin hd]
      exact whenAdmissible_neg h _
    | ok i =>
      rw [step_of_decoded hin hd]
      exact exec_of_not_admissible (s := { s with inputs := rest, response := none }) h i
  · exact absurd hin (hrst c r rest)

/-- Settles O13: the guard of each meaning, and of each step but `rst`. -/
theorem inadmissibleConfigurationIsRefused : Obligations.InadmissibleConfigurationIsRefused :=
  fun _ h => ⟨exec_of_not_admissible h, step_of_not_admissible h⟩

/-! ### A period register narrower than the operand -/

/-- The frame of a configuration command that completes on channel `i`. -/
theorem sameButChannel_respond_modifyChannel (st : Status) (x : Sample) (i : ChannelId) (f : Channel → Channel)
    (s : State) : SameButChannel i s (respond st x (modifyChannel i f s)) :=
  ⟨rfl, rfl, fun _ hj => Regs.channel_setChannel_ne _ _ hj, rfl, rfl, rfl⟩

/-- Settles O58: SET_PERIOD completes on a channel, and the period it stores is a legal one whatever the operand and whatever
the free value. -/
theorem setPeriodBeyondTheRegister : Obligations.SetPeriodBeyondTheRegister := by
  intro ch v s i ha hch _
  obtain ⟨hmin, hmax⟩ := clampPeriod_mem ha ch v
  refine ⟨_, execSetPeriod_of_channel ha hch v, ?_⟩
  simp only [respond_regs, respond_response, modifyChannel_regs, Regs.channel_setChannel_self, true_and]
  exact ⟨hmin, hmax, sameButChannel_respond_modifyChannel ..⟩

end Sys2Proof.Machine
end

section
/-! PROOFS. The state of the block (10_state.md): its reset values (R33), its invariants I1 to I6 (R34), who writes each register
(R22 to R26, R32), and the independence of the channels (R38). -/

namespace Sys2Proof.Machine
open Sys2Proof.Claims

/-! ### The advances in closed form -/

@[simp] theorem channelAfter_period (n : Nat) (c : Channel) : (channelAfter n c).period = c.period := rfl
@[simp] theorem channelAfter_counter (n : Nat) (c : Channel) :
    (channelAfter n c).counter = countAfter c.counter n c.period := rfl
@[simp] theorem noiseAfter_channel (cfg : Cfg) (n : Nat) (r : Regs) (i : ChannelId) :
    (noiseAfter cfg n r).channel i = r.channel i := rfl
@[simp] theorem regsAfterStep_channel (cfg : Cfg) (r : Regs) (i : ChannelId) :
    (regsAfterStep cfg r).channel i = channelAfter (ticksOf cfg r) (r.channel i) := by
  simp [Regs.channel, regsAfterStep]
@[simp] theorem regsAfterStep_lfsr (cfg : Cfg) (r : Regs) :
    (regsAfterStep cfg r).lfsr =
      (lfsrShift cfg)^[underflows r.noiseCounter.toNat (ticksOf cfg r) cfg.noisePeriod] r.lfsr := rfl
@[simp] theorem regsAfterStep_noiseCounter (cfg : Cfg) (r : Regs) :
    (regsAfterStep cfg r).noiseCounter =
      BitVec.ofNat 16 (countAfter r.noiseCounter.toNat (ticksOf cfg r) cfg.noisePeriod) := rfl
@[simp] theorem regsAfterStep_tickAcc (cfg : Cfg) (r : Regs) :
    (regsAfterStep cfg r).tickAcc = (nextTickCount cfg r).2.tickAcc := rfl

/-- The output bit after `k` toggles, by the parity of `k` (40_tone_channel.md R94). -/
theorem toggled_eq_ite (bit : Bool) (k : Nat) : toggled bit k = if k % 2 = 1 then !bit else bit := by
  rcases Nat.mod_two_eq_zero_or_one k with hk | hk <;> simp [toggled, hk]

/-- The loop counts its own rounds: the number of toggles is the number of underflows (40_tone_channel.md R94). -/
theorem toneCount_of_period_pos {c : Channel} (hp : 0 < c.period) (n : Nat) :
    toneCount n c = some (((countAfter c.counter n c.period : Nat) : Int), underflows c.counter n c.period) := by
  rw [toneCount, countDown_eq hp, add_right_iterate_apply_zero, smul_eq_mul, Nat.mul_one]

/-- A channel of positive period is advanced to the closed form (40_tone_channel.md R98). -/
theorem advanceChannel_of_period_pos {c : Channel} (hp : 0 < c.period) (n : Nat) :
    advanceChannel n c = some (channelAfter n c) := by
  simp only [advanceChannel, toneCount_of_period_pos hp, Option.map_some, Int.toNat_natCast, toggled_eq_ite,
    channelAfter]

theorem toneAdvance_of_period_pos {i : ChannelId} {r : Regs} (hp : 0 < (r.channel i).period) (n : Nat) :
    toneAdvance i n r = some (r.setChannel i (channelAfter n (r.channel i))) := by
  rw [toneAdvance, advanceChannel_of_period_pos hp, Option.map_some]

theorem noisePeriod_pos {cfg : Cfg} (h : Admissible cfg) : 0 < cfg.noisePeriod := by
  obtain ⟨-, -, -, -, -, -, -, -, ⟨hpos, -⟩, -⟩ := h
  exact hpos

theorem noiseSeed_ne_zero {cfg : Cfg} (h : Admissible cfg) : cfg.noiseSeed ≠ 0#16 := by
  obtain ⟨-, -, -, -, -, -, -, hseed, -⟩ := h
  exact hseed

/-- The noise advance always ends, at the closed form (41_noise_generator.md R112). -/
theorem noiseAdvance_of_admissible {cfg : Cfg} (h : Admissible cfg) (n : Nat) (r : Regs) :
    noiseAdvance cfg n r = some (noiseAfter cfg n r) := by
  simp only [noiseAdvance, countDown_eq (noisePeriod_pos h), Option.map_some, BitVec.ofInt_natCast, noiseAfter]

/-- With no period 0 a decimation step completes, and leaves the closed form (44_sample_engine.md R151). -/
theorem decimationStep_of_periods_pos {cfg : Cfg} (h : Admissible cfg) {r : Regs}
    (hp : ∀ i, 0 < (r.channel i).period) : decimationStep cfg r = some (regsAfterStep cfg r) := by
  have htick : decimationStep cfg r = advanceAll cfg (ticksOf cfg r) (nextTickCount cfg r).2 := rfl
  rw [htick, advanceAll, noiseAdvance_of_admissible h, Option.bind_some,
    toneAdvance_of_period_pos (by simp [hp]), Option.bind_some,
    toneAdvance_of_period_pos (by simp [hp]), Option.bind_some,
    toneAdvance_of_period_pos (by simp [hp]), Option.some.injEq]
  refine Regs.ext_channel (fun i => ?_) rfl rfl rfl
  fin_cases i <;> simp

/-- NEXT_SAMPLE completes where no period is 0. -/
theorem execNextSample_of_periods_pos {s : State} (ha : Admissible s.cfg)
    (hp : ∀ i, 0 < (s.regs.channel i).period) :
    execNextSample s =
      .next (respond .ok (mix s.cfg (regsAfterStep s.cfg s.regs)) { s with regs := regsAfterStep s.cfg s.regs }) := by
  simp only [execNextSample, whenAdmissible_pos ha, decimationStep_of_periods_pos ha hp]

/-! ### The configuration commands, all three at once -/

/-- What a configuration command writes into the channel it is for (40_tone_channel.md R90, R91, R92). -/
def configure (cfg : Cfg) : Instr → Channel → Channel
  | .setPeriod ch v, c => { c with period := clampPeriod cfg ch v }
  | .setVolume _ v, c => { c with volume := clampVolume v }
  | .setMode _ v, c => { c with mode := v.extractLsb' 0 2 }
  | .nextSample, c => c

@[simp] theorem configure_counter (cfg : Cfg) (i : Instr) (c : Channel) : (configure cfg i c).counter = c.counter := by
  cases i <;> rfl

/-- A command the block rejects raises ConfigError in every state, with the cause its operands give it (60_exceptions.md R166). -/
theorem exec_of_invalidity {i : Instr} {cause : Cause} {s : State} (h : i.invalidity = some cause)
    (ha : Admissible s.cfg) : exec i s = .next (raiseConfigError cause s) := by
  cases i with
  | nextSample => simp [Instr.invalidity] at h
  | setPeriod ch v =>
    obtain ⟨rfl, rfl⟩ : ch = 3#2 ∧ Cause.badChannel = cause := by simpa [Instr.invalidity] using h
    exact whenAdmissible_pos ha _
  | setVolume ch v =>
    obtain ⟨rfl, rfl⟩ : ch = 3#2 ∧ Cause.badChannel = cause := by simpa [Instr.invalidity] using h
    exact whenAdmissible_pos ha _
  | setMode ch v =>
    by_cases hch : ch = 3#2
    · obtain rfl : Cause.badChannel = cause := by simpa [Instr.invalidity, hch] using h
      subst hch
      exact whenAdmissible_pos ha _
    · obtain ⟨hv, rfl⟩ : 3 < v.toNat ∧ Cause.badMode = cause := by simpa [Instr.invalidity, hch] using h
      obtain ⟨k, hk⟩ := Option.ne_none_iff_exists'.1 (mt selectChannel_eq_none.1 hch)
      simp only [exec_setMode, execSetMode, whenAdmissible_pos ha, hk, modeFlags_eq_none.2 hv]

/-- A configuration command the block accepts is for one of the three channels (20_memory.md R51). -/
theorem exists_channel_of_wellFormed {i : Instr} (hw : i.WellFormed) (hi : i ≠ .nextSample) :
    ∃ reg ch, target i = some (reg, ch) ∧ ∃ k : ChannelId, ch.toNat = k.val := by
  have hsel : ∀ ch : ChannelField, ch ≠ 3#2 → ∃ k : ChannelId, ch.toNat = k.val := fun ch hch =>
    (Option.ne_none_iff_exists'.1 (mt selectChannel_eq_none.1 hch)).imp fun _ => selectChannel_eq_some.1
  cases i with
  | nextSample => exact absurd rfl hi
  | setPeriod ch v => exact ⟨1, ch, rfl, hsel ch (by rintro rfl; simp [Instr.WellFormed, Instr.invalidity] at hw)⟩
  | setVolume ch v => exact ⟨2, ch, rfl, hsel ch (by rintro rfl; simp [Instr.WellFormed, Instr.invalidity] at hw)⟩
  | setMode ch v => exact ⟨3, ch, rfl, hsel ch (by rintro rfl; simp [Instr.WellFormed, Instr.invalidity] at hw)⟩

/-- A configuration command the block accepts writes its one register of its one channel. -/
theorem exec_of_wellFormed {i : Instr} {reg : Nat} {ch : ChannelField} {k : ChannelId} {s : State}
    (hw : i.WellFormed) (ht : target i = some (reg, ch)) (hk : ch.toNat = k.val) (ha : Admissible s.cfg) :
    exec i s = .next (respond .ok 0 (modifyChannel k (configure s.cfg i) s)) := by
  cases i with
  | nextSample => cases ht
  | setPeriod ch v => cases ht; exact execSetPeriod_of_channel ha hk v
  | setVolume ch v => cases ht; exact execSetVolume_of_channel ha hk v
  | setMode ch v =>
    cases ht
    have hv : ¬ 3 < v.toNat := fun hv => by
      simp only [Instr.WellFormed, Instr.invalidity, if_pos hv] at hw
      split at hw <;> cases hw
    exact execSetMode_of_channel ha hk (modeFlags_eq_some.1 (if_neg hv))

/-- A command answers a next state only under an admissible configuration (00_scope.md R9). -/
theorem exec_admissible {i : Instr} {s t : State} (h : exec i s = .next t) : Admissible s.cfg := by
  by_contra hn
  simp [exec_of_not_admissible hn] at h

/-- Everything a configuration command can do to the registers: nothing to the shared ones, and to a channel nothing, unless it
is for that channel. -/
theorem exec_configuration_regs {i : Instr} {s t : State} (hi : i ≠ .nextSample) (h : exec i s = .next t) :
    t.regs.lfsr = s.regs.lfsr ∧ t.regs.noiseCounter = s.regs.noiseCounter ∧ t.regs.tickAcc = s.regs.tickAcc ∧
      ∀ j, t.regs.channel j = s.regs.channel j ∨
        ((∃ reg ch, target i = some (reg, ch) ∧ ch.toNat = j.val) ∧
          t.regs.channel j = configure s.cfg i (s.regs.channel j)) := by
  have ha := exec_admissible h
  cases hinv : i.invalidity with
  | some cause =>
    obtain rfl : raiseConfigError cause s = t := by simpa [exec_of_invalidity hinv ha] using h
    exact ⟨rfl, rfl, rfl, fun _ => .inl rfl⟩
  | none =>
    obtain ⟨reg, ch, ht, k, hk⟩ := exists_channel_of_wellFormed hinv hi
    obtain rfl : respond .ok 0 (modifyChannel k (configure s.cfg i) s) = t := by
      simpa [exec_of_wellFormed hinv ht hk ha] using h
    refine ⟨rfl, rfl, rfl, fun j => ?_⟩
    by_cases hj : j = k
    · subst hj
      exact .inr ⟨⟨reg, ch, ht, hk⟩, Regs.channel_setChannel_self ..⟩
    · exact .inl (Regs.channel_setChannel_ne _ _ hj)

/-! ### The invariant I1 to I6 -/

/-- I1 and I2 of 10_state.md R34 on one channel; I3 holds of every 4-bit volume. -/
def Channel.Legal (cfg : Cfg) (c : Channel) : Prop :=
  (minPeriod cfg ≤ c.period ∧ c.period ≤ periodMax cfg) ∧ c.counter ≤ periodMax cfg - 1

theorem volume_le_volMax (v : BitVec 4) : v.toNat ≤ volMax := Nat.le_of_lt_succ v.isLt

/-- The invariant channel by channel. -/
theorem Regs.inv_iff {cfg : Cfg} {r : Regs} :
    r.Inv cfg ↔ (∀ i, (r.channel i).Legal cfg) ∧ r.lfsr ≠ 0#16 ∧ r.noiseCounter.toNat ≤ cfg.noisePeriod - 1 ∧
      r.tickAcc.toNat ≤ cfg.sampleRate - 1 := by
  simp only [Regs.Inv, Channel.Legal, forall_and, volume_le_volMax, implies_true, true_and, and_assoc]

theorem Channel.Legal.period_pos {cfg : Cfg} {c : Channel} (ha : Admissible cfg) (h : c.Legal cfg) : 0 < c.period := by
  obtain ⟨⟨hmin, -⟩, -⟩ := h
  exact (minPeriod_pos ha).trans hmin

/-- Under the invariant no period is 0 (10_state.md R22). -/
theorem State.Inv.period_pos {s : State} (h : s.Inv) (i : ChannelId) : 0 < (s.regs.channel i).period := by
  obtain ⟨ha, hr⟩ := h
  obtain ⟨hch, -⟩ := Regs.inv_iff.1 hr
  exact (hch i).period_pos ha

/-- SET_PERIOD stores a legal period; the other commands leave the period. -/
theorem configure_legal {cfg : Cfg} (ha : Admissible cfg) (i : Instr) {c : Channel} (h : c.Legal cfg) :
    (configure cfg i c).Legal cfg := by
  cases i with
  | setPeriod ch v => exact ⟨clampPeriod_mem ha ch v, h.2⟩
  | setVolume => exact h
  | setMode => exact h
  | nextSample => exact h

/-- A tone advance leaves the count where it was or brings it below the period, so below `PERIOD_MAX`. -/
theorem channelAfter_legal {cfg : Cfg} (ha : Admissible cfg) (n : Nat) {c : Channel} (h : c.Legal cfg) :
    (channelAfter n c).Legal cfg := by
  have hle := countAfter_le (c := c.counter) (n := n) (h.period_pos ha)
  obtain ⟨hperiod, hcounter⟩ := h
  refine ⟨hperiod, ?_⟩
  rw [channelAfter_counter]
  omega

/-- The guard keeps the shift register off 0 (41_noise_generator.md R111). -/
theorem lfsrShift_ne_zero {cfg : Cfg} (ha : Admissible cfg) (r : BitVec 16) : lfsrShift cfg r ≠ 0#16 := by
  rw [lfsrShift, lfsrGuard]
  split
  · exact noiseSeed_ne_zero ha
  · assumption

theorem lfsrShift_iterate_ne_zero {cfg : Cfg} (ha : Admissible cfg) {r : BitVec 16} (hr : r ≠ 0#16) (k : Nat) :
    (lfsrShift cfg)^[k] r ≠ 0#16 := by
  cases k with
  | zero => exact hr
  | succ k =>
    rw [Function.iterate_succ_apply']
    exact lfsrShift_ne_zero ha _

/-- I1 to I6 are kept by a decimation step. -/
theorem regsAfterStep_inv {cfg : Cfg} (ha : Admissible cfg) {r : Regs} (h : r.Inv cfg) : (regsAfterStep cfg r).Inv cfg := by
  obtain ⟨hch, hlfsr, hnoise, -⟩ := Regs.inv_iff.1 h
  refine Regs.inv_iff.2 ⟨fun i => ?_, lfsrShift_iterate_ne_zero ha hlfsr _, ?_, ?_⟩
  · rw [regsAfterStep_channel]
    exact channelAfter_legal ha _ (hch i)
  · have hle := countAfter_le (c := r.noiseCounter.toNat) (n := ticksOf cfg r) (noisePeriod_pos ha)
    rw [regsAfterStep_noiseCounter, BitVec.toNat_ofNat]
    exact (Nat.mod_le _ _).trans (by omega)
  · rw [regsAfterStep_tickAcc, nextTickCount_tickAcc ha]
    exact Nat.le_sub_one_of_lt (Nat.mod_lt _ (Nat.zero_lt_of_lt (accReset_lt ha)))

theorem execNextSample_of_inv {s : State} (h : s.Inv) :
    execNextSample s =
      .next (respond .ok (mix s.cfg (regsAfterStep s.cfg s.regs)) { s with regs := regsAfterStep s.cfg s.regs }) :=
  execNextSample_of_periods_pos h.1 h.period_pos

/-- Every command keeps the invariant. -/
theorem exec_keeps_inv {i : Instr} {s t : State} (hs : s.Inv) (h : exec i s = .next t) : t.Inv := by
  have ⟨ha, hr⟩ := hs
  by_cases hi : i = .nextSample
  · subst hi
    rw [exec_nextSample, execNextSample_of_inv hs] at h
    cases h
    exact ⟨ha, regsAfterStep_inv ha hr⟩
  · obtain ⟨hch, hshared⟩ := Regs.inv_iff.1 hr
    obtain ⟨hlfsr, hnoise, hacc, hchan⟩ := exec_configuration_regs hi h
    rw [State.Inv, exec_keeps_cfg h, Regs.inv_iff, hlfsr, hnoise, hacc]
    refine ⟨ha, fun j => ?_, hshared⟩
    rcases hchan j with heq | ⟨-, heq⟩ <;> rw [heq]
    · exact hch j
    · exact configure_legal ha i (hch j)

theorem resetRegs_inv {cfg : Cfg} (ha : Admissible cfg) : (resetRegs cfg).Inv cfg := by
  refine Regs.inv_iff.2 ⟨fun i => ?_, noiseSeed_ne_zero ha, Nat.zero_le _, ?_⟩
  · rw [resetRegs_channel]
    exact ⟨⟨le_rfl, minPeriod_le ha⟩, Nat.zero_le _⟩
  · rw [resetRegs_tickAcc_toNat ha]
    exact Nat.le_sub_one_of_lt (accReset_lt ha)

/-- The state after every RESET has the invariant, whatever the host will present. -/
theorem resetTo_inv {cfg : Cfg} (ha : Admissible cfg) : (State.resetTo cfg).Inv := ⟨ha, resetRegs_inv ha⟩

/-- Settles O52, along the four things a step can do: an idle step and a rejected word leave the registers, `rst` loads the reset
values, and a command keeps the invariant. -/
theorem stepKeepsTheInvariant : Obligations.StepKeepsTheInvariant := by
  intro s t hs h
  obtain ⟨-, -, rfl⟩ | ⟨c, r, rest, -, ha, rfl⟩ | ⟨w, rest, cause, -, -, -, rfl⟩ | ⟨w, rest, i, -, -, hx⟩ :=
    step_eq_next h
  · exact hs
  · exact resetTo_inv ha
  · exact hs
  · exact exec_keeps_inv (s := { s with inputs := rest, response := none }) hs hx

/-! ### Runs -/

/-- What every step keeps, whatever input is presented, holds at the end of every run. -/
theorem runInputs_keeps {P : State → Prop} (hstep : ∀ x s t, P s → step (present x s) = .next t → P t)
    {inputs : List Input} {s t : State} (hs : P s) (h : runInputs inputs s = .next t) : P t := by
  induction inputs generalizing s with
  | nil => cases h; exact hs
  | cons x rest ih =>
    rw [runInputs] at h
    split at h
    · next u hu => exact ih (hstep x s u hs hu) h
    · cases h
    · cases h

/-- Settles O53: RESET has the invariant, and every step keeps it (O52). -/
theorem everyReachableStateHasTheInvariant : Obligations.EveryReachableStateHasTheInvariant :=
  fun _ _ _ ha h => runInputs_keeps (fun x s t hs => stepKeepsTheInvariant (present x s) t hs) (resetTo_inv ha) h

/-! ### RESET -/

/-- Settles O1, register by register. -/
theorem resetLoadsTheResetValues : Obligations.ResetLoadsTheResetValues := by
  intro cfg ha
  refine ⟨⟨fun i => ?_, rfl, rfl, resetRegs_tickAcc_toNat ha⟩, fun hacc => ?_⟩
  · rw [resetTo_regs, resetRegs_channel]
    exact ⟨rfl, rfl, rfl, rfl, rfl⟩
  · rw [resetTo_regs, resetRegs_tickAcc, hacc]
    rfl

/-- Settles O2: the model's own configuration is admissible too. -/
theorem resetMeetsTheInvariant : Obligations.ResetMeetsTheInvariant :=
  ⟨fun _ => resetTo_inv, resetTo_inv (by decide)⟩

/-! ### Who writes the control registers -/

/-- NEXT_SAMPLE writes no period, volume or mode, in any state (10_state.md R32). -/
theorem execNextSample_keeps_control {s t : State} (h : execNextSample s = .next t) (i : ChannelId) :
    (t.regs.channel i).period = (s.regs.channel i).period ∧
      (t.regs.channel i).volume = (s.regs.channel i).volume ∧ (t.regs.channel i).mode = (s.regs.channel i).mode := by
  obtain ⟨-, r, hr, rfl⟩ := execNextSample_eq_next h
  obtain ⟨q, -, hch, -⟩ := decimationStep_eq_some hr
  obtain ⟨count, k, -, hc⟩ := advanceChannel_eq_some (hch i)
  rw [respond_regs, hc]
  exact ⟨rfl, rfl, rfl⟩

/-- Settles O45: a decimation step advances channels, and an advance leaves the control registers. -/
theorem nextSampleKeepsTheControlRegisters : Obligations.NextSampleKeepsTheControlRegisters := by
  intro s t h
  refine ⟨execNextSample_keeps_control h, ?_⟩
  obtain ⟨-, r, -, rfl⟩ := execNextSample_eq_next h
  exact ⟨rfl, rfl⟩

/-- A command that changes a control register of channel `j` is that register's own, on channel `j`. -/
theorem exec_control_writer {i : Instr} {s t : State} (h : exec i s = .next t) (j : ChannelId) :
    ((t.regs.channel j).period ≠ (s.regs.channel j).period → ∃ ch v, i = .setPeriod ch v ∧ ch.toNat = j.val) ∧
    ((t.regs.channel j).volume ≠ (s.regs.channel j).volume → ∃ ch v, i = .setVolume ch v ∧ ch.toNat = j.val) ∧
    ((t.regs.channel j).mode ≠ (s.regs.channel j).mode → ∃ ch v, i = .setMode ch v ∧ ch.toNat = j.val) := by
  by_cases hi : i = .nextSample
  · subst hi
    obtain ⟨hp, hv, hm⟩ := execNextSample_keeps_control h j
    exact ⟨absurd hp, absurd hv, absurd hm⟩
  obtain ⟨-, -, -, hch⟩ := exec_configuration_regs hi h
  obtain heq | ⟨⟨reg, ch, ht, hj⟩, heq⟩ := hch j <;> rw [heq]
  · exact ⟨absurd rfl, absurd rfl, absurd rfl⟩
  · cases i with
    | nextSample => exact absurd rfl hi
    | setPeriod ch v => cases ht; exact ⟨fun _ => ⟨ch, v, rfl, hj⟩, absurd rfl, absurd rfl⟩
    | setVolume ch v => cases ht; exact ⟨absurd rfl, fun _ => ⟨ch, v, rfl, hj⟩, absurd rfl⟩
    | setMode ch v => cases ht; exact ⟨absurd rfl, absurd rfl, fun _ => ⟨ch, v, rfl, hj⟩⟩

/-- A step other than `rst` leaves the registers, or runs the command its word decodes to (44_sample_engine.md R150). -/
theorem step_regs_of_not_rst {s t : State} (h : step s = .next t) (hrst : ∀ c r rest, s.inputs ≠ .reset c r :: rest) :
    t.regs = s.regs ∨ ∃ w rest i, s.inputs = .command w :: rest ∧ decode w = .ok i ∧
      exec i { s with inputs := rest, response := none } = .next t := by
  obtain ⟨-, -, rfl⟩ | ⟨c, r, rest, hin, -⟩ | ⟨w, rest, cause, -, -, -, rfl⟩ | hx := step_eq_next h
  · exact .inl rfl
  · exact absurd hin (hrst c r rest)
  · exact .inl rfl
  · exact .inr hx

/-- Settles O17: a step that is not `rst` changes registers by a command alone, and each command writes its own register. -/
theorem controlRegistersHaveOneWriter : Obligations.ControlRegistersHaveOneWriter := by
  intro s t j h hrst
  obtain heq | ⟨w, rest, i, hin, hd, hx⟩ := step_regs_of_not_rst h hrst
  · rw [heq]
    exact ⟨absurd rfl, absurd rfl, absurd rfl⟩
  · obtain ⟨hp, hv, hm⟩ := exec_control_writer hx j
    exact ⟨fun hne => let ⟨ch, v, hi, hj⟩ := hp hne; ⟨w, rest, ch, v, hin, hi ▸ hd, hj⟩,
      fun hne => let ⟨ch, v, hi, hj⟩ := hv hne; ⟨w, rest, ch, v, hin, hi ▸ hd, hj⟩,
      fun hne => let ⟨ch, v, hi, hj⟩ := hm hne; ⟨w, rest, ch, v, hin, hi ▸ hd, hj⟩⟩

/-! ### The counter and its period -/

/-- Settles O31: a configuration command leaves the counter, and an advance leaves it below the period once it is there. -/
theorem counterStaysBelowItsPeriod : Obligations.CounterStaysBelowItsPeriod := by
  intro s t i j hs h hperiod hlt
  by_cases hi : i = .nextSample
  · subst hi
    rw [exec_nextSample, execNextSample_of_inv hs] at h
    cases h
    have hle := countAfter_le (c := (s.regs.channel j).counter) (n := ticksOf s.cfg s.regs) (hs.period_pos j)
    rw [respond_regs, regsAfterStep_channel, channelAfter_counter, channelAfter_period]
    omega
  · obtain ⟨-, -, -, hch⟩ := exec_configuration_regs hi h
    have hcounter : (t.regs.channel j).counter = (s.regs.channel j).counter := by
      obtain heq | ⟨-, heq⟩ := hch j <;> simp [heq]
    rw [hcounter]
    exact hlt.trans_le hperiod

/-! ### The independence of the channels -/

/-- A write to one channel leaves in channel `j` what its own registers determine. -/
theorem setChannel_channel_congr {r r' : Regs} {j : ChannelId} (h : r.channel j = r'.channel j) (k : ChannelId)
    (f : Channel → Channel) :
    (r.setChannel k (f (r.channel k))).channel j = (r'.setChannel k (f (r'.channel k))).channel j := by
  by_cases hj : j = k
  · subst hj
    simp [h]
  · simpa [hj] using h

theorem ticksOf_congr {cfg : Cfg} {r r' : Regs} (h : r.tickAcc = r'.tickAcc) : ticksOf cfg r = ticksOf cfg r' := by
  rw [ticksOf, ticksOf, h]

/-- Settles O51: NEXT_SAMPLE advances channel `j` from its own registers and the tick count; whether and where a configuration
command writes is in its operands alone. -/
theorem channelsAreIndependent : Obligations.ChannelsAreIndependent := by
  intro i j s s' hs hs' hcfg hacc hch
  by_cases hi : i = .nextSample
  · subst hi
    refine ⟨_, _, execNextSample_of_inv hs, execNextSample_of_inv hs', ?_⟩
    simp only [respond_regs, regsAfterStep_channel, hch, hcfg, ticksOf_congr hacc]
  cases hinv : i.invalidity with
  | some cause => exact ⟨_, _, exec_of_invalidity hinv hs.1, exec_of_invalidity hinv hs'.1, hch⟩
  | none =>
    obtain ⟨reg, ch, ht, k, hk⟩ := exists_channel_of_wellFormed hinv hi
    refine ⟨_, _, exec_of_wellFormed hinv ht hk hs.1, exec_of_wellFormed hinv ht hk hs'.1, ?_⟩
    rw [hcfg]
    exact setChannel_channel_congr hch k (configure s'.cfg i)

end Sys2Proof.Machine
end

section
/-! PROOFS. The configuration commands (20_memory.md): one given twice leaves what it leaves when given once (R54). -/

namespace Sys2Proof.Machine

/-- The value a configuration command stores does not depend on the register it replaces (40_tone_channel.md R90, R91, R92). -/
theorem configure_configure (cfg : Cfg) (i : Instr) (c : Channel) :
    configure cfg i (configure cfg i c) = configure cfg i c := by
  cases i <;> rfl

/-- A completed write to a channel, repeated, changes nothing where the change itself is idempotent. -/
theorem respond_modifyChannel_idem {f : Channel → Channel} (hf : ∀ c, f (f c) = f c) (st : Status) (x : Sample)
    (k : ChannelId) (s : State) :
    respond st x (modifyChannel k f (respond st x (modifyChannel k f s))) = respond st x (modifyChannel k f s) := by
  simp [respond, modifyChannel, hf]

/-- Settles O8: a rejected command leaves `s` but for its response, and an accepted one writes one channel by an idempotent
change. Which of the two it is lies in the operands alone, and the configuration is the same the second time. -/
theorem configurationIsIdempotent : Obligations.ConfigurationIsIdempotent := by
  intro i s t hi h
  have hs := exec_admissible h
  have ht : Admissible t.cfg := exec_keeps_cfg h ▸ hs
  cases hinv : i.invalidity with
  | some cause =>
    obtain rfl : raiseConfigError cause s = t := by simpa [exec_of_invalidity hinv hs] using h
    exact exec_of_invalidity hinv ht
  | none =>
    obtain ⟨reg, ch, htarget, k, hk⟩ := exists_channel_of_wellFormed hinv hi
    obtain rfl : respond .ok 0 (modifyChannel k (configure s.cfg i) s) = t := by
      simpa [exec_of_wellFormed hinv htarget hk hs] using h
    rw [exec_of_wellFormed hinv htarget hk ht]
    exact congrArg _ (respond_modifyChannel_idem (configure_configure s.cfg i) ..)

end Sys2Proof.Machine
end

section
/-! PROOFS. The command words (30_encoding.md): the decoder against the steps of R74 and the table of R72, encode against decode,
the count of R77, and the response every word gets (R78). -/

namespace Sys2Proof
open Sys2Proof.Machine Sys2Proof.Claims

/-! ### The fields by arithmetic -/

theorem opOf_eq (w : Word) : opOf w = (opField w).toNat := (opField_toNat w).symm
theorem rz1Of_eq (w : Word) : rz1Of w = (rz1Field w).toNat := (rz1Field_toNat w).symm
theorem chOf_eq (w : Word) : chOf w = (chField w).toNat := (chField_toNat w).symm
theorem rz2Of_eq (w : Word) : rz2Of w = (rz2Field w).toNat := (rz2Field_toNat w).symm
theorem valueOf_eq (w : Word) : valueOf w = (valueField w).toNat := (valueField_toNat w).symm

/-- Steps 1 to 3 of 30_encoding.md R74, on the fields the decoder reads. -/
theorem badEncoding_iff {w : Word} :
    BadEncoding w ↔ (rz1Field w ≠ 0#2 ∨ rz2Field w ≠ 0#8) ∨
      (opField w ≠ 1#4 ∧ opField w ≠ 2#4 ∧ opField w ≠ 3#4 ∧ opField w ≠ 4#4) ∨
      (opField w = 4#4 ∧ (chField w ≠ 0#2 ∨ valueField w ≠ 0#16)) := by
  simp only [BadEncoding, opOf_eq, rz1Of_eq, chOf_eq, rz2Of_eq, valueOf_eq, ne_eq, ← BitVec.toNat_inj, BitVec.toNat_ofNat]
  omega

/-- A word is laid out from its fields where the reserved ones are 0 (30_encoding.md R71). -/
theorem commandWord_eq_iff {op : BitVec 4} {ch : ChannelField} {v : Value} {w : Word} :
    commandWord op ch v = w ↔
      opField w = op ∧ rz1Field w = 0#2 ∧ chField w = ch ∧ rz2Field w = 0#8 ∧ valueField w = v := by
  constructor
  · rintro rfl
    exact fields_commandWord op ch v
  · rintro ⟨rfl, hrz1, rfl, hrz2, rfl⟩
    have hsum := toNat_eq_fields w
    rw [hrz1, hrz2] at hsum
    rw [← BitVec.toNat_inj, commandWord_toNat]
    simpa using hsum.symm

/-- The command a word's fields spell, with no test of the reserved fields or the operands. -/
def spelledCommand (w : Word) : Instr :=
  if opField w = 1#4 then .setPeriod (chField w) (valueField w)
  else if opField w = 2#4 then .setVolume (chField w) (valueField w)
  else if opField w = 3#4 then .setMode (chField w) (valueField w)
  else .nextSample

theorem spelledCommand_encode (i : Instr) : spelledCommand (encode i) = i := by
  cases i <;> simp [spelledCommand, encode, fields_commandWord]

/-- A word is the encoding of one command at most, the ill-formed ones included. -/
theorem encode_injective : Function.Injective encode := Function.LeftInverse.injective spelledCommand_encode

/-! ### Which instructions are well formed -/

@[simp] theorem wellFormed_setPeriod {ch : ChannelField} {v : Value} :
    (Instr.setPeriod ch v).WellFormed ↔ ch ≠ 3#2 := by simp [Instr.WellFormed, Instr.invalidity]

@[simp] theorem wellFormed_setVolume {ch : ChannelField} {v : Value} :
    (Instr.setVolume ch v).WellFormed ↔ ch ≠ 3#2 := by simp [Instr.WellFormed, Instr.invalidity]

@[simp] theorem wellFormed_setMode {ch : ChannelField} {v : Value} :
    (Instr.setMode ch v).WellFormed ↔ ch ≠ 3#2 ∧ v.toNat ≤ 3 := by
  simp only [Instr.WellFormed, Instr.invalidity]
  split <;> simp_all

@[simp] theorem wellFormed_nextSample : Instr.nextSample.WellFormed := rfl

/-- The block rejects an instruction for its operands, never for its encoding (60_exceptions.md R167). -/
theorem invalidity_ne_badEncoding (i : Instr) : i.invalidity ≠ some .badEncoding := by
  cases i with
  | nextSample => simp [Instr.invalidity]
  | setPeriod ch v => simp [Instr.invalidity]
  | setVolume ch v => simp [Instr.invalidity]
  | setMode ch v =>
    simp only [Instr.invalidity]
    split
    · simp
    · split <;> simp

/-! ### Decode against encode -/

theorem decode_encode_setPeriod (ch : ChannelField) (v : Value) :
    decode (encode (.setPeriod ch v)) = if ch = 3#2 then .error .badChannel else .ok (.setPeriod ch v) := by
  simp [encode, decode, fields_commandWord]

theorem decode_encode_setVolume (ch : ChannelField) (v : Value) :
    decode (encode (.setVolume ch v)) = if ch = 3#2 then .error .badChannel else .ok (.setVolume ch v) := by
  simp [encode, decode, fields_commandWord]

/-- The channel is tested before the flags (60_exceptions.md R170). -/
theorem decode_encode_setMode (ch : ChannelField) (v : Value) :
    decode (encode (.setMode ch v)) =
      if ch = 3#2 then .error .badChannel else if 3 < v.toNat then .error .badMode else .ok (.setMode ch v) := by
  simp [encode, decode, fields_commandWord]

theorem decode_encode_nextSample : decode (encode .nextSample) = .ok .nextSample := rfl

/-- Settles O20: the decoder reads back the fields the encoder laid out, and tests them as `invalidity` does. -/
theorem encodedCommandDecodesToItself : Obligations.EncodedCommandDecodesToItself := by
  intro i
  cases i with
  | setPeriod ch v =>
    rw [decode_encode_setPeriod, Instr.invalidity]
    split <;> rfl
  | setVolume ch v =>
    rw [decode_encode_setVolume, Instr.invalidity]
    split <;> rfl
  | setMode ch v =>
    rw [decode_encode_setMode, Instr.invalidity]
    split
    · rfl
    · split <;> rfl
  | nextSample => exact decode_encode_nextSample

theorem decode_encode_of_wellFormed {i : Instr} (h : i.WellFormed) : decode (encode i) = .ok i := by
  rw [encodedCommandDecodesToItself i, h]

theorem decode_encode_of_invalidity {i : Instr} {cause : Cause} (h : i.invalidity = some cause) :
    decode (encode i) = .error cause := by
  rw [encodedCommandDecodesToItself i, h]

theorem decode_encode_eq_ok_iff {i j : Instr} : decode (encode i) = .ok j ↔ i.WellFormed ∧ i = j := by
  cases hinv : i.invalidity with
  | none => simp [decode_encode_of_wellFormed hinv, Instr.WellFormed, hinv]
  | some cause => simp [decode_encode_of_invalidity hinv, Instr.WellFormed, hinv]

/-- The first three steps of the decoder are those of 30_encoding.md R74. -/
theorem decode_of_badEncoding {w : Word} (h : BadEncoding w) : decode w = .error .badEncoding := by
  obtain hrz | hop | ⟨hop, hargs⟩ := badEncoding_iff.1 h
  · exact if_pos hrz
  · exact ite_eq_left_iff.2 fun _ => if_pos hop
  · exact ite_eq_left_iff.2 fun _ => ite_eq_left_iff.2 fun _ => if_pos ⟨hop, hargs⟩

/-- Past step 2 the opcode is one of the four (30_encoding.md R74). -/
theorem opOf_of_not_badEncoding {w : Word} (h : ¬ BadEncoding w) :
    opOf w = 1 ∨ opOf w = 2 ∨ opOf w = 3 ∨ opOf w = 4 := by
  unfold BadEncoding at h
  omega

/-- A word whose reserved bits step 1 passes is laid out from its other fields. -/
theorem commandWord_of_not_badEncoding {w : Word} (h : ¬ BadEncoding w) :
    commandWord (BitVec.ofNat 4 (opOf w)) (BitVec.ofNat 2 (chOf w)) (BitVec.ofNat 16 (valueOf w)) = w := by
  simp only [badEncoding_iff, not_or, not_not] at h
  obtain ⟨⟨hrz1, hrz2⟩, -⟩ := h
  simp [commandWord_eq_iff, opOf_eq, chOf_eq, valueOf_eq, hrz1, hrz2]

theorem encode_setPeriod_of_opOf {w : Word} (h : ¬ BadEncoding w) (hop : opOf w = 1) :
    encode (.setPeriod (BitVec.ofNat 2 (chOf w)) (BitVec.ofNat 16 (valueOf w))) = w := by
  simpa [encode, hop] using commandWord_of_not_badEncoding h

theorem encode_setVolume_of_opOf {w : Word} (h : ¬ BadEncoding w) (hop : opOf w = 2) :
    encode (.setVolume (BitVec.ofNat 2 (chOf w)) (BitVec.ofNat 16 (valueOf w))) = w := by
  simpa [encode, hop] using commandWord_of_not_badEncoding h

theorem encode_setMode_of_opOf {w : Word} (h : ¬ BadEncoding w) (hop : opOf w = 3) :
    encode (.setMode (BitVec.ofNat 2 (chOf w)) (BitVec.ofNat 16 (valueOf w))) = w := by
  simpa [encode, hop] using commandWord_of_not_badEncoding h

/-- Past step 3 a word of opcode 4 has no operands (30_encoding.md R74). -/
theorem encode_nextSample_of_opOf {w : Word} (h : ¬ BadEncoding w) (hop : opOf w = 4) : encode .nextSample = w := by
  obtain ⟨hch, hv⟩ : chOf w = 0 ∧ valueOf w = 0 := by
    unfold BadEncoding at h
    omega
  simpa [encode, hop, hch, hv] using commandWord_of_not_badEncoding h

/-- What steps 1 to 3 pass is the word of an instruction, well formed or not. -/
theorem exists_encode_of_not_badEncoding {w : Word} (h : ¬ BadEncoding w) : ∃ i, encode i = w := by
  obtain hop | hop | hop | hop := opOf_of_not_badEncoding h
  · exact ⟨_, encode_setPeriod_of_opOf h hop⟩
  · exact ⟨_, encode_setVolume_of_opOf h hop⟩
  · exact ⟨_, encode_setMode_of_opOf h hop⟩
  · exact ⟨_, encode_nextSample_of_opOf h hop⟩

/-- BAD_ENCODING is given to the words that are the encoding of no instruction, and to no other. -/
theorem decode_eq_badEncoding_iff {w : Word} : decode w = .error .badEncoding ↔ ∀ i, encode i ≠ w := by
  constructor
  · rintro h i rfl
    cases hinv : i.invalidity with
    | none => simp [decode_encode_of_wellFormed hinv] at h
    | some cause =>
      obtain rfl : cause = .badEncoding := by simpa [decode_encode_of_invalidity hinv] using h
      exact invalidity_ne_badEncoding i hinv
  · intro h
    refine decode_of_badEncoding (by_contra fun hbad => ?_)
    obtain ⟨i, hi⟩ := exists_encode_of_not_badEncoding hbad
    exact h i hi

/-- Settles O21: an accepted word is the encoding of some instruction, and that one decodes to itself (O20). -/
theorem acceptedWordIsItsEncoding : Obligations.AcceptedWordIsItsEncoding := by
  intro w i h
  have hbad : decode w ≠ .error .badEncoding := by simp [h]
  obtain ⟨j, rfl⟩ : ∃ j, encode j = w := by simpa [decode_eq_badEncoding_iff] using hbad
  obtain ⟨hw, rfl⟩ := decode_encode_eq_ok_iff.1 h
  exact ⟨hw, rfl⟩

/-! ### The steps of the decoder -/

theorem ofNat_chOf_eq_three {w : Word} : BitVec.ofNat 2 (chOf w) = 3#2 ↔ chOf w = 3 := by
  simp [chOf_eq, ← BitVec.toNat_inj]

theorem decode_of_opOf_eq_one {w : Word} (h : ¬ BadEncoding w) (hop : opOf w = 1) :
    decode w = if chOf w = 3 then .error .badChannel
      else .ok (.setPeriod (BitVec.ofNat 2 (chOf w)) (BitVec.ofNat 16 (valueOf w))) := by
  have hd := decode_encode_setPeriod (BitVec.ofNat 2 (chOf w)) (BitVec.ofNat 16 (valueOf w))
  simpa only [encode_setPeriod_of_opOf h hop, ofNat_chOf_eq_three] using hd

theorem decode_of_opOf_eq_two {w : Word} (h : ¬ BadEncoding w) (hop : opOf w = 2) :
    decode w = if chOf w = 3 then .error .badChannel
      else .ok (.setVolume (BitVec.ofNat 2 (chOf w)) (BitVec.ofNat 16 (valueOf w))) := by
  have hd := decode_encode_setVolume (BitVec.ofNat 2 (chOf w)) (BitVec.ofNat 16 (valueOf w))
  simpa only [encode_setVolume_of_opOf h hop, ofNat_chOf_eq_three] using hd

theorem decode_of_opOf_eq_three {w : Word} (h : ¬ BadEncoding w) (hop : opOf w = 3) :
    decode w = if chOf w = 3 then .error .badChannel else if 3 < valueOf w then .error .badMode
      else .ok (.setMode (BitVec.ofNat 2 (chOf w)) (BitVec.ofNat 16 (valueOf w))) := by
  have hd := decode_encode_setMode (BitVec.ofNat 2 (chOf w)) (BitVec.ofNat 16 (valueOf w))
  have hv : (BitVec.ofNat 16 (valueOf w)).toNat = valueOf w := Nat.mod_mod ..
  simpa only [encode_setMode_of_opOf h hop, ofNat_chOf_eq_three, hv] using hd

theorem decode_of_opOf_eq_four {w : Word} (h : ¬ BadEncoding w) (hop : opOf w = 4) : decode w = .ok .nextSample := by
  rw [← encode_nextSample_of_opOf h hop, decode_encode_nextSample]

/-- The channel is tested before anything that tells the three configuration commands apart (30_encoding.md R74, step 5). -/
theorem decode_of_chOf_eq_three {w : Word} (h : ¬ BadEncoding w) (hop : opOf w ≠ 4) (hch : chOf w = 3) :
    decode w = .error .badChannel := by
  obtain h1 | h2 | h3 | h4 := opOf_of_not_badEncoding h
  · rw [decode_of_opOf_eq_one h h1, if_pos hch]
  · rw [decode_of_opOf_eq_two h h2, if_pos hch]
  · rw [decode_of_opOf_eq_three h h3, if_pos hch]
  · exact absurd h4 hop

/-- A word the decoder rejects, presented under an admissible configuration, raises ConfigError (30_encoding.md R74). -/
theorem step_present_rejected {s : State} {w : Word} {cause : Cause} (ha : Admissible s.cfg)
    (hd : decode w = .error cause) : RaisesConfigError s (step (present (.command w) s)) :=
  (step_of_rejected rfl hd).trans (whenAdmissible_pos ha _)

/-- Settles O18, step by step. -/
theorem decoderFollowsItsSteps : Obligations.DecoderFollowsItsSteps := by
  intro w
  refine ⟨decode_of_badEncoding, decode_of_opOf_eq_four, decode_of_chOf_eq_three, fun h hop hch hv => ?_,
    fun h hop hch => ?_, fun h hop hch => ?_, fun h hop hch hv => ?_, fun s cause => step_present_rejected⟩
  · rw [decode_of_opOf_eq_three h hop, if_neg hch, if_pos hv]
  · rw [decode_of_opOf_eq_one h hop, if_neg hch]
  · rw [decode_of_opOf_eq_two h hop, if_neg hch]
  · rw [decode_of_opOf_eq_three h hop, if_neg hch, if_neg (Nat.not_lt.2 hv)]

/-- Settles O23, by running the decoder on each word. -/
theorem exampleWordsDecode : Obligations.ExampleWordsDecode := by
  unfold Obligations.ExampleWordsDecode
  decide

/-! ### The rows of the table -/

/-- Under the mask of the three configuration rows the operands alone are free. -/
theorem and_rowMask_eq_iff {op : BitVec 4} {w : Word} :
    w &&& 0xFCFF0000#32 = commandWord op 0#2 0#16 ↔ ∃ ch v, commandWord op ch v = w := by
  have hmask : w &&& 0xFCFF0000#32 = commandWord op 0#2 0#16 ↔
      opField w = op ∧ rz1Field w = 0#2 ∧ rz2Field w = 0#8 := by
    have hop := op.isLt
    have hrz1 := (rz1Field w).isLt
    have hrz2 := (rz2Field w).isLt
    simp only [← BitVec.toNat_inj, and_rowMask_toNat, commandWord_toNat, BitVec.toNat_ofNat]
    omega
  simp [hmask, commandWord_eq_iff]

/-- The word of an instruction, well formed or not, selects that instruction's row. -/
theorem encode_and_mask (i : Instr) : encode i &&& (tableRow i).2 = (tableRow i).1 := by
  cases i with
  | setPeriod ch v => exact and_rowMask_eq_iff.2 ⟨ch, v, rfl⟩
  | setVolume ch v => exact and_rowMask_eq_iff.2 ⟨ch, v, rfl⟩
  | setMode ch v => exact and_rowMask_eq_iff.2 ⟨ch, v, rfl⟩
  | nextSample => rfl

/-- A word that selects a row is the word of an instruction of that row, well formed or not. -/
theorem exists_encode_of_and_mask {i : Instr} {w : Word} (h : w &&& (tableRow i).2 = (tableRow i).1) :
    ∃ j, tableRow j = tableRow i ∧ encode j = w := by
  cases i with
  | setPeriod =>
    obtain ⟨ch, v, hw⟩ := (and_rowMask_eq_iff (op := 1#4)).1 h
    exact ⟨.setPeriod ch v, rfl, hw⟩
  | setVolume =>
    obtain ⟨ch, v, hw⟩ := (and_rowMask_eq_iff (op := 2#4)).1 h
    exact ⟨.setVolume ch v, rfl, hw⟩
  | setMode =>
    obtain ⟨ch, v, hw⟩ := (and_rowMask_eq_iff (op := 3#4)).1 h
    exact ⟨.setMode ch v, rfl, hw⟩
  | nextSample => exact ⟨.nextSample, rfl, h.symm.trans BitVec.and_allOnes⟩

theorem mem_tableRows {row : Word × Word} : row ∈ tableRows ↔ ∃ i, tableRow i = row := by
  constructor
  · intro h
    fin_cases h
    exacts [⟨.setPeriod 0 0, rfl⟩, ⟨.setVolume 0 0, rfl⟩, ⟨.setMode 0 0, rfl⟩, ⟨.nextSample, rfl⟩]
  · rintro ⟨i, rfl⟩
    cases i <;> simp [tableRow, tableRows]

/-- Settles O19: to select a row is to be the word of an instruction of that row, and a word is that of one instruction at
most. -/
theorem badEncodingSelectsNoRow : Obligations.BadEncodingSelectsNoRow := by
  refine ⟨fun w => decode_eq_badEncoding_iff.trans ⟨fun h row hrow hsel => ?_, fun h i hi => ?_⟩, fun w i h => ?_,
    fun w a ha b hb hwa hwb => ?_⟩
  · obtain ⟨i, rfl⟩ := mem_tableRows.1 hrow
    obtain ⟨j, -, hj⟩ := exists_encode_of_and_mask hsel
    exact h j hj
  · exact h _ (mem_tableRows.2 ⟨i, rfl⟩) (hi ▸ encode_and_mask i)
  · obtain ⟨-, rfl⟩ := acceptedWordIsItsEncoding w i h
    exact encode_and_mask i
  · obtain ⟨i, rfl⟩ := mem_tableRows.1 ha
    obtain ⟨j, rfl⟩ := mem_tableRows.1 hb
    obtain ⟨i', hi, hwi⟩ := exists_encode_of_and_mask hwa
    obtain ⟨j', hj, hwj⟩ := exists_encode_of_and_mask hwb
    rw [← hi, ← hj, encode_injective (hwi.trans hwj.symm)]

/-! ### The count of the accepted words -/

/-- The operands of a well-formed instruction: none for NEXT_SAMPLE, or one of three channels with a period, a level, or flags
of which two bits are in use (30_encoding.md R77). -/
abbrev AcceptedOperands : Type :=
  Unit ⊕ {ch : ChannelField // ch ≠ 3#2} × (Value ⊕ Value ⊕ {flags : Value // flags.toNat ≤ 3})

/-- A well-formed instruction is one of the four with operands it accepts. -/
def wellFormedEquiv : {i : Instr // i.WellFormed} ≃ AcceptedOperands where
  toFun
    | ⟨.nextSample, _⟩ => .inl ()
    | ⟨.setPeriod ch v, h⟩ => .inr (⟨ch, wellFormed_setPeriod.1 h⟩, .inl v)
    | ⟨.setVolume ch v, h⟩ => .inr (⟨ch, wellFormed_setVolume.1 h⟩, .inr (.inl v))
    | ⟨.setMode ch v, h⟩ => .inr (⟨ch, (wellFormed_setMode.1 h).1⟩, .inr (.inr ⟨v, (wellFormed_setMode.1 h).2⟩))
  invFun
    | .inl () => ⟨.nextSample, wellFormed_nextSample⟩
    | .inr (ch, .inl v) => ⟨.setPeriod ch v, wellFormed_setPeriod.2 ch.2⟩
    | .inr (ch, .inr (.inl v)) => ⟨.setVolume ch v, wellFormed_setVolume.2 ch.2⟩
    | .inr (ch, .inr (.inr v)) => ⟨.setMode ch v, wellFormed_setMode.2 ⟨ch.2, v.2⟩⟩
  left_inv := by rintro ⟨_ | _ | _ | _, _⟩ <;> rfl
  right_inv := by rintro (_ | ⟨_, _ | _ | _⟩) <;> rfl

/-- The word of a well-formed instruction, which the decoder accepts. -/
def acceptedWord (i : {i : Instr // i.WellFormed}) : {w : Word // ∃ i, decode w = .ok i} :=
  ⟨encode i, i, decode_encode_of_wellFormed i.2⟩

/-- The accepted words are the well-formed instructions (30_encoding.md R72, R75). -/
theorem acceptedWord_bijective : Function.Bijective acceptedWord := by
  refine ⟨fun i j h => Subtype.ext (encode_injective (congrArg Subtype.val h)), ?_⟩
  rintro ⟨w, i, h⟩
  obtain ⟨hwf, hw⟩ := acceptedWordIsItsEncoding w i h
  exact ⟨⟨i, hwf⟩, Subtype.ext hw⟩

theorem card_bitVec (n : Nat) : Nat.card (BitVec n) = 2 ^ n := by
  rw [Nat.card_congr BitVec.equivFin.toEquiv, Nat.card_fin]

theorem card_channelOperand : Nat.card {ch : ChannelField // ch ≠ 3#2} = 3 :=
  Nat.subtype_card {0#2, 1#2, 2#2} (by decide)

theorem card_flagsOperand : Nat.card {flags : Value // flags.toNat ≤ 3} = 4 := by
  refine Nat.subtype_card {0#16, 1#16, 2#16, 3#16} fun flags => ?_
  simp only [Finset.mem_insert, Finset.mem_singleton, ← BitVec.toNat_inj, BitVec.toNat_ofNat]
  omega

/-- Settles O22: 1 word of NEXT_SAMPLE, and for each of 3 channels 65536 of SET_PERIOD, 65536 of SET_VOLUME and 4 of
SET_MODE. -/
theorem acceptedWordsAreCounted : Obligations.AcceptedWordsAreCounted := by
  unfold Obligations.AcceptedWordsAreCounted
  rw [← Nat.card_eq_of_bijective _ acceptedWord_bijective, Nat.card_congr wellFormedEquiv, Nat.card_sum, Nat.card_prod,
    Nat.card_sum, Nat.card_sum, Nat.card_unique, card_channelOperand, card_flagsOperand, card_bitVec]
  norm_num

end Sys2Proof

namespace Sys2Proof.Machine
open Sys2Proof.Claims

/-! ### The response to a word -/

/-- The gate is the tables of 42_mixer_quantizer.md R126 and R127. -/
theorem gate_eq_gateTable (rule : GateRule) (mode : BitVec 2) (toneBit nb : Bool) :
    gate rule mode toneBit nb = gateTable rule mode toneBit nb := by
  cases rule <;> revert mode toneBit nb <;> decide

theorem contribution_eq_channelLevel (cfg : Cfg) (r : Regs) (i : ChannelId) :
    contribution cfg r i = channelLevel cfg r i := by
  simp only [contribution, gate_eq_gateTable, noiseBit, levelOf, channelLevel]

theorem mixSum_eq_levelSum (cfg : Cfg) (r : Regs) : mixSum cfg r = levelSum cfg r := by
  simp only [mixSum, contribution_eq_channelLevel, levelSum]

theorem mix_eq_sampleOf (cfg : Cfg) (r : Regs) : mix cfg r = BitVec.ofInt 16 (sampleOf cfg (levelSum cfg r)) := by
  rw [mix, mixSum_eq_levelSum, quantize, centred2, sampleOf]

/-- A configuration command the block accepts gives the response `(OK, 0)` (30_encoding.md R78). -/
theorem exec_wellFormed_responds {i : Instr} {s : State} (hw : i.WellFormed) (hi : i ≠ .nextSample)
    (ha : Admissible s.cfg) : ∃ t, exec i s = .next t ∧ t.response = some ⟨.ok, 0⟩ := by
  obtain ⟨reg, ch, ht, k, hk⟩ := exists_channel_of_wellFormed hw hi
  exact ⟨_, exec_of_wellFormed hw ht hk ha, rfl⟩

/-- Settles O14: a rejected word raises ConfigError, NEXT_SAMPLE responds with the mix of the registers it leaves, and an accepted
word is that of a well-formed instruction (O21), so a configuration command completes. -/
theorem everyWordGetsItsResponse : Obligations.EveryWordGetsItsResponse := by
  intro s w rest hs hin
  cases hd : decode w with
  | error cause =>
    refine ⟨_, ⟨.configError, 0⟩, (step_of_rejected hin hd).trans (whenAdmissible_pos hs.1 _), rfl, ?_⟩
    simp [statusBit]
  | ok i =>
    by_cases hi : i = .nextSample
    · subst hi
      refine ⟨_, ⟨.ok, mix s.cfg (regsAfterStep s.cfg s.regs)⟩,
        (step_of_decoded hin hd).trans (execNextSample_of_inv (s := { s with inputs := rest, response := none }) hs),
        rfl, ?_⟩
      simp [statusBit, mix_eq_sampleOf]
    · obtain ⟨hwf, -⟩ := acceptedWordIsItsEncoding w i hd
      obtain ⟨t, ht, hresp⟩ := exec_wellFormed_responds (s := { s with inputs := rest, response := none }) hwf hi hs.1
      refine ⟨t, ⟨.ok, 0⟩, (step_of_decoded hin hd).trans ht, hresp, ?_⟩
      simp [statusBit, hi]

end Sys2Proof.Machine
end

section
/-! PROOFS. The tone channels (40_tone_channel.md): the three configuration commands (R90 to R93), the closed form of an advance
(R94 to R99, R101), and what an advance depends on (R103). -/

namespace Sys2Proof.Machine
open Sys2Proof.Claims

/-! ### The configuration commands -/

@[simp] theorem configure_outputBit (cfg : Cfg) (i : Instr) (c : Channel) :
    (configure cfg i c).outputBit = c.outputBit := by
  cases i <;> rfl

/-- An ill-formed command, executed, raises ConfigError (40_tone_channel.md R90, R91, R92). -/
theorem exec_of_not_wellFormed {i : Instr} {s : State} (h : ¬ i.WellFormed) (ha : Admissible s.cfg) :
    RaisesConfigError s (exec i s) := by
  obtain ⟨cause, hcause⟩ := Option.ne_none_iff_exists'.1 h
  exact exec_of_invalidity hcause ha

theorem channelField_ne_three {ch : ChannelField} {k : ChannelId} (h : ch.toNat = k.val) : ch ≠ 3#2 := by
  rintro rfl
  exact absurd h (Nat.ne_of_gt k.isLt)

/-- An accepted configuration command writes its register of its channel, answers `(OK, 0)`, and leaves everything else. -/
theorem exec_of_wellFormed_frame {i : Instr} {reg : Nat} {ch : ChannelField} {k : ChannelId} {s : State}
    (hw : i.WellFormed) (ht : target i = some (reg, ch)) (hk : ch.toNat = k.val) (ha : Admissible s.cfg) :
    ∃ t, exec i s = .next t ∧ t.regs.channel k = configure s.cfg i (s.regs.channel k) ∧
      t.response = some ⟨.ok, 0⟩ ∧ SameButChannel k s t :=
  ⟨_, exec_of_wellFormed hw ht hk ha, Regs.channel_setChannel_self .., rfl,
    sameButChannel_respond_modifyChannel ..⟩

/-- Settles O4: channel 3 is ill-formed, and on a channel the period stored is the clamped operand. -/
theorem setPeriodStoresTheClampedPeriod : Obligations.SetPeriodStoresTheClampedPeriod := by
  refine fun ch v => ⟨commandWord_toNat 1 ch v, fun s ha => ⟨fun h3 => ?_, fun i hi hv => ?_⟩⟩
  · exact exec_of_not_wellFormed (by simp [h3]) ha
  · obtain ⟨t, ht, hch, hresp, hframe⟩ := exec_of_wellFormed_frame (i := .setPeriod ch v)
      (wellFormed_setPeriod.2 (channelField_ne_three hi)) rfl hi ha
    refine ⟨t, ht, ?_⟩
    rw [hch]
    exact ⟨clampPeriod_of_le hv ch, rfl, rfl, rfl, rfl, hresp, hframe⟩

/-- Settles O5: channel 3 is ill-formed, and on a channel the level stored is the clamped operand. -/
theorem setVolumeStoresTheClampedLevel : Obligations.SetVolumeStoresTheClampedLevel := by
  refine fun ch v => ⟨commandWord_toNat 2 ch v, fun s ha => ⟨fun h3 => ?_, fun i hi => ?_⟩⟩
  · exact exec_of_not_wellFormed (by simp [h3]) ha
  · obtain ⟨t, ht, hch, hresp, hframe⟩ := exec_of_wellFormed_frame (i := .setVolume ch v)
      (wellFormed_setVolume.2 (channelField_ne_three hi)) rfl hi ha
    refine ⟨t, ht, ?_⟩
    rw [hch]
    exact ⟨clampVolume_toNat v, rfl, rfl, rfl, rfl, hresp, hframe⟩

/-- Flags of at most 3 are their own two low bits (40_tone_channel.md R92). -/
theorem configure_setMode_mode {v : Value} (hv : v.toNat ≤ 3) (cfg : Cfg) (ch : ChannelField) (c : Channel) :
    (configure cfg (.setMode ch v) c).mode.toNat = v.toNat :=
  modeFlags_eq_some.1 (if_neg (Nat.not_lt.2 hv))

/-- Settles O6: channel 3 and flags above 3 are ill-formed, and on a channel the flags are stored. -/
theorem setModeStoresTheFlags : Obligations.SetModeStoresTheFlags := by
  refine fun ch v => ⟨commandWord_toNat 3 ch v, fun s ha => ⟨fun hbad => ?_, fun i hi hv => ?_⟩⟩
  · refine exec_of_not_wellFormed (fun hw => ?_) ha
    obtain ⟨hch, hv⟩ := wellFormed_setMode.1 hw
    exact hbad.elim hch hv.not_gt
  · obtain ⟨t, ht, hch, hresp, hframe⟩ := exec_of_wellFormed_frame (i := .setMode ch v)
      (wellFormed_setMode.2 ⟨channelField_ne_three hi, hv⟩) rfl hi ha
    refine ⟨t, ht, ?_⟩
    rw [hch]
    exact ⟨configure_setMode_mode hv .., rfl, rfl, rfl, rfl, hresp, hframe⟩

/-- No command takes or adds a pending input: the step does (20_memory.md R57). -/
theorem exec_keeps_inputs {i : Instr} {s t : State} (h : exec i s = .next t) : t.inputs = s.inputs := by
  cases i with
  | setPeriod ch v => obtain ⟨-, ⟨-, rfl⟩ | ⟨_, -, rfl⟩⟩ := execSetPeriod_eq_next h <;> rfl
  | setVolume ch v => obtain ⟨-, ⟨-, rfl⟩ | ⟨_, -, rfl⟩⟩ := execSetVolume_eq_next h <;> rfl
  | setMode ch v =>
    obtain ⟨-, ⟨-, rfl⟩ | ⟨-, -, rfl⟩ | ⟨_, _, -, -, rfl⟩⟩ := execSetMode_eq_next h <;> rfl
  | nextSample => obtain ⟨-, _, -, rfl⟩ := execNextSample_eq_next h; rfl

/-- Settles O7: a configuration command leaves a channel alone or writes one control register of the channel it names. -/
theorem configurationKeepsThePhase : Obligations.ConfigurationKeepsThePhase := by
  intro i s t hi h
  obtain ⟨hlfsr, hnoise, hacc, hch⟩ := exec_configuration_regs hi h
  refine ⟨fun j => ?_, hlfsr, hnoise, hacc, fun j hj => ?_, exec_keeps_cfg h, exec_keeps_inputs h⟩
  · obtain heq | ⟨-, heq⟩ := hch j <;> simp [heq]
  · obtain heq | ⟨⟨reg, ch, htarget, hchj⟩, -⟩ := hch j
    · exact heq
    · exact absurd hchj (hj reg ch htarget)

/-! ### The closed form of counting down -/

/-- The number of underflows is the least number of reloads that keeps the count from going below zero
(40_tone_channel.md R98). -/
theorem underflows_le_iff {c n p k : Nat} (hp : 0 < p) : underflows c n p ≤ k ↔ n ≤ c + k * p := by
  unfold underflows
  split
  · simp only [Nat.zero_le, true_iff]
    omega
  · rw [← Nat.ceilDiv_eq_add_pred_div, ceilDiv_le_iff_le_mul hp, mul_comm p]
    omega

/-- The count after `m + n` ticks takes the underflows of the first `m`, and then those of `n` from where these leave it. -/
theorem underflows_add {c m n p : Nat} (hp : 0 < p) :
    underflows c (m + n) p = underflows c m p + underflows (countAfter c m p) n p := by
  refine eq_of_forall_ge_iff fun k => ?_
  have hm := le_countAfter (c := c) (n := m) hp
  rw [underflows_le_iff hp]
  rcases Nat.lt_or_ge k (underflows c m p) with hlt | hge
  · have := mt (underflows_le_iff hp).2 (Nat.not_le.2 hlt)
    omega
  · obtain ⟨j, rfl⟩ := Nat.exists_eq_add_of_le hge
    rw [Nat.add_le_add_iff_left, underflows_le_iff hp, countAfter, add_mul]
    omega

theorem countAfter_add {c m n p : Nat} (hp : 0 < p) :
    countAfter c (m + n) p = countAfter (countAfter c m p) n p := by
  have hm := le_countAfter (c := c) (n := m) hp
  rw [countAfter, underflows_add hp, add_mul, countAfter.eq_def (countAfter c m p), countAfter.eq_def c m]
  omega

/-- The count as an integer, where nothing is cut off (40_tone_channel.md R98). -/
theorem natCast_countAfter {c n p : Nat} (hp : 0 < p) :
    (countAfter c n p : Int) = (c : Int) - n + p * underflows c n p := by
  rw [countAfter, Nat.cast_sub (le_countAfter hp)]
  push_cast
  ring

/-- Once there is an underflow, the count is the floor remainder of the negative difference (40_tone_channel.md R98). -/
theorem natCast_countAfter_eq_emod {c n p : Nat} (hp : 0 < p) (h : c < n) :
    (countAfter c n p : Int) = ((c : Int) - n) % p := by
  rw [← Int.add_mul_emod_self_left ((c : Int) - n) p (underflows c n p), ← natCast_countAfter hp,
    Int.emod_eq_of_lt (Int.natCast_nonneg _) (Int.ofNat_lt.2 (countAfter_lt hp h))]

/-- The count is at zero, with the next tick the next underflow, after exactly `c + j*p` ticks. -/
theorem countAfter_eq_zero_iff {c n p : Nat} (hp : 0 < p) : countAfter c n p = 0 ↔ ∃ j, n = c + j * p := by
  have hle := le_countAfter (c := c) (n := n) hp
  constructor
  · intro h
    rw [countAfter] at h
    exact ⟨underflows c n p, by omega⟩
  · rintro ⟨j, rfl⟩
    have := Nat.mul_le_mul_right p ((underflows_le_iff hp).2 (le_refl (c + j * p)))
    rw [countAfter]
    omega

/-! ### An advance of a tone channel -/

/-- Settles O28, by the closed form of the loop. -/
theorem toneAdvanceHasItsClosedForm : Obligations.ToneAdvanceHasItsClosedForm := by
  refine fun n c hp => ⟨advanceChannel_of_period_pos hp n, fun hle => ?_, natCast_countAfter_eq_emod hp⟩
  simp [channelAfter, countAfter_of_le hle, underflows_of_le hle]

/-- Toggles add up, since only their parity counts (40_tone_channel.md R94). -/
theorem toggled_toggled (bit : Bool) (j k : Nat) : toggled (toggled bit j) k = toggled bit (j + k) := by
  rcases Nat.mod_two_eq_zero_or_one j with hj | hj <;> rcases Nat.mod_two_eq_zero_or_one k with hk | hk <;>
    simp [toggled, Nat.add_mod, hj, hk]

/-- Advances add up: `m` ticks and then `n` are `m + n` (40_tone_channel.md R97). -/
theorem channelAfter_channelAfter {c : Channel} (hp : 0 < c.period) (m n : Nat) :
    channelAfter n (channelAfter m c) = channelAfter (m + n) c := by
  simp only [channelAfter, ← toggled_eq_ite, countAfter_add hp, underflows_add hp, toggled_toggled]

theorem channelAfter_zero (c : Channel) : channelAfter 0 c = c := by
  simp [channelAfter, countAfter_of_le (Nat.zero_le _), underflows_of_le (Nat.zero_le _)]

/-- Advancing by one tick, `n` times, gives the closed form for `n` ticks. -/
theorem times_advanceChannel_one (n : Nat) {c : Channel} (hp : 0 < c.period) :
    times (advanceChannel 1) n c = some (channelAfter n c) := by
  induction n generalizing c with
  | zero => rw [times, channelAfter_zero]
  | succ n ih =>
    rw [times, advanceChannel_of_period_pos hp, Option.bind_some, ih (c := channelAfter 1 c) hp,
      channelAfter_channelAfter hp, Nat.add_comm]

/-- Settles O29: both sides are the closed form. -/
theorem toneAdvanceIsTickByTick : Obligations.ToneAdvanceIsTickByTick :=
  fun n _ hp => (advanceChannel_of_period_pos hp n).trans (times_advanceChannel_one n hp).symm

/-- One tick toggles the output bit exactly where the counter is 0 (40_tone_channel.md R95). -/
theorem channelAfter_one_toggles_iff {c : Channel} (hp : 0 < c.period) :
    (channelAfter 1 c).outputBit ≠ c.outputBit ↔ c.counter = 0 := by
  rcases Nat.eq_zero_or_pos c.counter with h | h
  · have hu : underflows 0 1 c.period = 1 := by simp [underflows, Nat.div_self hp]
    simp [channelAfter, h, hu]
  · simp [channelAfter, underflows_of_le h, h.ne']

/-- Settles O32: tick `m + 1` toggles where `m` ticks have brought the counter to 0. -/
theorem squareWaveIsExact : Obligations.SquareWaveIsExact := by
  intro c m hp
  refine ⟨_, _, times_advanceChannel_one m hp, times_advanceChannel_one (m + 1) hp, ?_⟩
  rw [← channelAfter_channelAfter hp, channelAfter_one_toggles_iff (c := channelAfter m c) hp, channelAfter_counter,
    countAfter_eq_zero_iff hp]
  exact exists_congr fun j => by omega

/-! ### The ticks of one sample -/

/-- MIN_PERIOD is the ceiling of the ticks in half a sample (43_rate_converter.md R143). -/
theorem minPeriod_le_iff {cfg : Cfg} (hs : 1 ≤ cfg.sampleRate) {m : Nat} :
    minPeriod cfg ≤ m ↔ cfg.clockRate ≤ 2 * cfg.sampleRate * m := by
  rw [minPeriod, ← Nat.ceilDiv_eq_add_pred_div, ceilDiv_le_iff_le_mul (by omega)]

/-- A sample has at most two legal periods of ticks, since MIN_PERIOD is at least half a sample (00_scope.md R9). -/
theorem ticksOf_le_two_periods {cfg : Cfg} {r : Regs} {p : Nat} (ha : Admissible cfg)
    (hacc : r.tickAcc.toNat ≤ cfg.sampleRate - 1) (hp : minPeriod cfg ≤ p) : ticksOf cfg r ≤ 2 * p := by
  have hs := Nat.zero_lt_of_lt (accReset_lt ha)
  have hclock := (minPeriod_le_iff hs).1 hp
  refine Nat.lt_succ_iff.1 ((Nat.div_lt_iff_lt_mul hs).2 ?_)
  calc r.tickAcc.toNat + cfg.clockRate
      < cfg.sampleRate + 2 * cfg.sampleRate * p := by omega
    _ = (2 * p + 1) * cfg.sampleRate := by ring

/-- Settles O30: the tick count of a sample is at most two periods. -/
theorem atMostTwoTogglesPerSample : Obligations.AtMostTwoTogglesPerSample := by
  intro cfg r i ha hinv
  obtain ⟨hch, -, -, hacc⟩ := Regs.inv_iff.1 hinv
  have hp := (hch i).period_pos ha
  refine ⟨_, _, toneCount_of_period_pos hp _, (underflows_le_iff hp).2 ?_⟩
  exact (ticksOf_le_two_periods ha hacc (hch i).1.1).trans (Nat.le_add_left ..)

/-! ### Where NEXT_SAMPLE stops -/

/-- A channel of period 0 that underflows is not advanced: the loop never ends (40_tone_channel.md R94). -/
theorem advanceChannel_of_period_zero {c : Channel} {n : Nat} (hp : c.period = 0) (h : c.counter < n) :
    advanceChannel n c = none := by
  rw [advanceChannel, toneCount, hp, countDown_zero _ _ (by omega), Option.map_none]

/-- A channel that does not underflow is advanced whatever its period. -/
theorem advanceChannel_of_le {c : Channel} {n : Nat} (h : n ≤ c.counter) :
    advanceChannel n c = some (channelAfter n c) := by
  rw [advanceChannel, toneCount, countDown_of_nonneg _ _ _ (by omega), Option.map_some]
  simp [channelAfter, countAfter_of_le h, underflows_of_le h, toggled]

/-- A decimation step completes where every channel is advanced. -/
theorem decimationStep_of_channels {cfg : Cfg} (ha : Admissible cfg) {r : Regs}
    (h : ∀ i, advanceChannel (ticksOf cfg r) (r.channel i) = some (channelAfter (ticksOf cfg r) (r.channel i))) :
    ∃ r', decimationStep cfg r = some r' := by
  have htone : ∀ i q, q.channel i = r.channel i →
      toneAdvance i (ticksOf cfg r) q = some (q.setChannel i (channelAfter (ticksOf cfg r) (r.channel i))) :=
    fun i q hq => by rw [toneAdvance, hq, h i, Option.map_some]
  have htick : decimationStep cfg r = advanceAll cfg (ticksOf cfg r) (nextTickCount cfg r).2 := rfl
  rw [htick, advanceAll, noiseAdvance_of_admissible ha, Option.bind_some, htone 0 _ (by simp), Option.bind_some,
    htone 1 _ (by simp), Option.bind_some, htone 2 _ (by simp)]
  exact ⟨_, rfl⟩

/-- Settles O46: a decimation step needs an advance of every channel, and has one but for a channel of period 0 that
underflows. -/
theorem nextSampleStopsOnlyOnAZeroPeriod : Obligations.NextSampleStopsOnlyOnAZeroPeriod := by
  refine fun s ha => ⟨fun ⟨i, hp, hlt⟩ => ?_, fun h => ?_⟩
  · have hnone : decimationStep s.cfg s.regs = none := by
      refine Option.eq_none_iff_forall_ne_some.2 fun r hr => ?_
      obtain ⟨-, -, hch, -⟩ := decimationStep_eq_some hr
      exact Option.some_ne_none _ ((hch i).symm.trans (advanceChannel_of_period_zero hp hlt))
    simp only [exec_nextSample, execNextSample, whenAdmissible_pos ha, hnone]
  · obtain ⟨r, hr⟩ := decimationStep_of_channels ha fun i => by
      rcases Nat.eq_zero_or_pos (s.regs.channel i).period with hp | hp
      · exact advanceChannel_of_le (h i hp)
      · exact advanceChannel_of_period_pos hp _
    simp only [exec_nextSample, execNextSample, whenAdmissible_pos ha, hr]
    exact ⟨_, rfl⟩

/-! ### Volumes and modes -/

/-- The phase a channel has after `n` ticks depends on its period and phase alone (40_tone_channel.md R103). -/
theorem channelAfter_phase_congr {c c' : Channel}
    (h : c.period = c'.period ∧ c.counter = c'.counter ∧ c.outputBit = c'.outputBit) (n : Nat) :
    (channelAfter n c).counter = (channelAfter n c').counter ∧
      (channelAfter n c).outputBit = (channelAfter n c').outputBit := by
  obtain ⟨hperiod, hcounter, hbit⟩ := h
  simp only [channelAfter, hperiod, hcounter, hbit, and_self]

/-- Settles O50: the closed form of a decimation step reads no volume and no mode. -/
theorem volumeAndModeDoNotStopAnything : Obligations.VolumeAndModeDoNotStopAnything := by
  intro s s' hs hs' hcfg hlfsr hnoise hacc hch
  refine ⟨_, _, execNextSample_of_inv hs, execNextSample_of_inv hs', ?_, ?_, ?_, fun i => ?_⟩
  · simp only [respond_regs, regsAfterStep_lfsr, hcfg, ticksOf_congr hacc, hlfsr, hnoise]
  · simp only [respond_regs, regsAfterStep_noiseCounter, hcfg, ticksOf_congr hacc, hnoise]
  · simp only [respond_regs, regsAfterStep_tickAcc, nextTickCount, hcfg, hacc]
  · simp only [respond_regs, regsAfterStep_channel, hcfg, ticksOf_congr hacc]
    exact channelAfter_phase_congr (hch i) _

end Sys2Proof.Machine
end

section
/-! PROOFS. The noise generator (41_noise_generator.md): the guarded shift (R110, R111, R115), the closed form of an advance
(R112, R117), and what the noise registers depend on (R114, R118). -/

namespace Sys2Proof.Machine
open Sys2Proof.Claims

/-! ### The shift -/

theorem lfsrRaw_getLsbD_of_lt (cfg : Cfg) (r : BitVec 16) {i : Nat} (hi : i < 15) :
    (lfsrRaw cfg r).getLsbD i = r.getLsbD (i + 1) := by
  simp [lfsrRaw, BitVec.getLsbD_cons, hi, hi.ne, Nat.add_comm]

theorem lfsrRaw_getLsbD_last (cfg : Cfg) (r : BitVec 16) :
    (lfsrRaw cfg r).getLsbD 15 = (r.getLsbD cfg.noiseTapA ^^ r.getLsbD cfg.noiseTapB) := by
  rw [lfsrRaw, BitVec.getLsbD_cons, if_pos rfl]

theorem lfsrShift_of_raw_ne_zero {cfg : Cfg} {r : BitVec 16} (h : lfsrRaw cfg r ≠ 0#16) :
    lfsrShift cfg r = lfsrRaw cfg r := if_neg h

theorem lfsrShift_of_raw_eq_zero {cfg : Cfg} {r : BitVec 16} (h : lfsrRaw cfg r = 0#16) :
    lfsrShift cfg r = cfg.noiseSeed := if_pos h

/-- Settles O34, by the bits of the shift and the two cases of the guard. -/
theorem lfsrShiftsRightAndIsGuarded : Obligations.LfsrShiftsRightAndIsGuarded :=
  fun cfg r => ⟨fun _ => lfsrRaw_getLsbD_of_lt cfg r, lfsrRaw_getLsbD_last cfg r, lfsrShift_of_raw_ne_zero,
    lfsrShift_of_raw_eq_zero⟩

/-! ### Where the shift is a permutation -/

@[simp] theorem lfsrRaw_zero (cfg : Cfg) : lfsrRaw cfg 0#16 = 0#16 := by
  simp [lfsrRaw]

/-- With neither tap at bit 0, the bit shifted out is lost (41_noise_generator.md R111, the case of taps 1 and 2). -/
theorem lfsrRaw_one_of_taps_ne_zero {cfg : Cfg} (hA : cfg.noiseTapA ≠ 0) (hB : cfg.noiseTapB ≠ 0) :
    lfsrRaw cfg 1#16 = 0#16 := by
  simp [lfsrRaw, hA, hB]

/-- With one tap at bit 0, the bit shifted out can be recovered from the bit shifted in (41_noise_generator.md R115). -/
theorem lfsrRaw_injective_of_tap_zero {cfg : Cfg} (hne : cfg.noiseTapA ≠ cfg.noiseTapB)
    (h0 : cfg.noiseTapA = 0 ∨ cfg.noiseTapB = 0) : Function.Injective (lfsrRaw cfg) := by
  intro r r' h
  have hhigh : ∀ i : Fin 16, i ≠ 0 → r.getLsbD i = r'.getLsbD i := by
    intro i hi
    obtain ⟨j, rfl⟩ := Fin.exists_succ_eq.2 hi
    rw [Fin.val_succ, ← lfsrRaw_getLsbD_of_lt cfg r j.isLt, h, lfsrRaw_getLsbD_of_lt cfg r' j.isLt]
  have hxor : (r.getLsbD cfg.noiseTapA ^^ r.getLsbD cfg.noiseTapB) =
      (r'.getLsbD cfg.noiseTapA ^^ r'.getLsbD cfg.noiseTapB) := by
    rw [← lfsrRaw_getLsbD_last, h, lfsrRaw_getLsbD_last]
  have hlow : r.getLsbD (0 : Fin 16) = r'.getLsbD (0 : Fin 16) := by
    rcases h0 with hA | hB
    · rwa [hA, hhigh cfg.noiseTapB (hA ▸ hne.symm), Bool.xor_left_inj] at hxor
    · rwa [hB, hhigh cfg.noiseTapA (hB ▸ hne), Bool.xor_right_inj] at hxor
  refine BitVec.eq_of_getLsbD_eq fun i hi => ?_
  by_cases hz : (⟨i, hi⟩ : Fin 16) = 0
  · simpa [← hz] using hlow
  · exact hhigh ⟨i, hi⟩ hz

theorem lfsrRaw_injective_iff {cfg : Cfg} (hne : cfg.noiseTapA ≠ cfg.noiseTapB) :
    Function.Injective (lfsrRaw cfg) ↔ cfg.noiseTapA = 0 ∨ cfg.noiseTapB = 0 := by
  refine ⟨fun hinj => ?_, lfsrRaw_injective_of_tap_zero hne⟩
  by_contra! hn
  have h10 : (1#16) = 0#16 := hinj ((lfsrRaw_one_of_taps_ne_zero hn.1 hn.2).trans (lfsrRaw_zero cfg).symm)
  exact absurd h10 (by decide)

/-- Settles O35: on 16-bit values a bijection is an injection, and an injection that fixes 0 sends no other value there. -/
theorem unguardedShiftPermutesIffATapIsBitZero : Obligations.UnguardedShiftPermutesIffATapIsBitZero := by
  refine fun cfg hne => ⟨Finite.injective_iff_bijective.symm.trans (lfsrRaw_injective_iff hne), fun h0 r hr => ?_⟩
  have hinj := lfsrRaw_injective_of_tap_zero hne h0
  exact lfsrShift_of_raw_ne_zero fun hraw => hr (hinj (hraw.trans (lfsrRaw_zero cfg).symm))

/-! ### An advance of the noise generator -/

theorem noisePeriod_le {cfg : Cfg} (h : Admissible cfg) : cfg.noisePeriod ≤ 65535 := by
  obtain ⟨-, -, -, -, -, -, -, -, ⟨-, hle⟩, -⟩ := h
  exact hle

/-- The count after an advance fits the 16 bits of its register (10_state.md R28). -/
theorem noiseAfter_noiseCounter_toNat {cfg : Cfg} (ha : Admissible cfg) (n : Nat) (r : Regs) :
    (noiseAfter cfg n r).noiseCounter.toNat = countAfter r.noiseCounter.toNat n cfg.noisePeriod := by
  have hle := countAfter_le (c := r.noiseCounter.toNat) (n := n) (noisePeriod_pos ha)
  have hc := r.noiseCounter.isLt
  have hp := noisePeriod_le ha
  rw [noiseAfter, BitVec.toNat_ofNat]
  exact Nat.mod_eq_of_lt (by omega)

/-- A counter underflows at most once per tick (41_noise_generator.md R112). -/
theorem underflows_le_ticks {c n p : Nat} (hp : 0 < p) : underflows c n p ≤ n :=
  (underflows_le_iff hp).2 ((Nat.le_mul_of_pos_right n hp).trans (Nat.le_add_left ..))

/-- Settles O36, by the closed form of the loop. -/
theorem noiseAdvanceHasItsClosedForm : Obligations.NoiseAdvanceHasItsClosedForm :=
  fun _ n r ha _ => ⟨noiseAdvance_of_admissible ha n r, noiseAfter_noiseCounter_toNat ha n r,
    underflows_le_ticks (noisePeriod_pos ha)⟩

/-- Advances add up: `m` ticks and then `n` are `m + n` (41_noise_generator.md R117). -/
theorem noiseAfter_noiseAfter {cfg : Cfg} (ha : Admissible cfg) (m n : Nat) (r : Regs) :
    noiseAfter cfg n (noiseAfter cfg m r) = noiseAfter cfg (m + n) r := by
  have hp := noisePeriod_pos ha
  rw [noiseAfter, noiseAfter_noiseCounter_toNat ha, ← countAfter_add hp]
  simp only [noiseAfter, underflows_add hp, ← Function.iterate_add_apply, Nat.add_comm]

theorem noiseAfter_zero (cfg : Cfg) (r : Regs) : noiseAfter cfg 0 r = r := by
  simp [noiseAfter, countAfter_of_le (Nat.zero_le _), underflows_of_le (Nat.zero_le _)]

/-- Advancing by one tick, `n` times, gives the closed form for `n` ticks. -/
theorem times_noiseAdvance_one {cfg : Cfg} (ha : Admissible cfg) (n : Nat) (r : Regs) :
    times (noiseAdvance cfg 1) n r = some (noiseAfter cfg n r) := by
  induction n generalizing r with
  | zero => rw [times, noiseAfter_zero]
  | succ n ih =>
    rw [times, noiseAdvance_of_admissible ha, Option.bind_some, ih, noiseAfter_noiseAfter ha, Nat.add_comm]

/-- Settles O37: both sides are the closed form. -/
theorem noiseAdvanceIsTickByTick : Obligations.NoiseAdvanceIsTickByTick :=
  fun _ n r ha _ => (noiseAdvance_of_admissible ha n r).trans (times_noiseAdvance_one ha n r).symm

/-! ### The shared registers along a run -/

/-- The registers no channel has: the two of the noise generator and the accumulator (10_state.md R27, R28, R30). -/
def Regs.shared (r : Regs) : BitVec 16 × BitVec 16 × BitVec 32 := (r.lfsr, r.noiseCounter, r.tickAcc)

theorem Regs.shared_eq_iff {r r' : Regs} :
    r.shared = r'.shared ↔ r.lfsr = r'.lfsr ∧ r.noiseCounter = r'.noiseCounter ∧ r.tickAcc = r'.tickAcc := by
  simp only [Regs.shared, Prod.mk.injEq]

/-- What a decimation step leaves in the shared registers depends on these alone (41_noise_generator.md R114). -/
theorem regsAfterStep_shared_congr (cfg : Cfg) {r r' : Regs} (h : r.shared = r'.shared) :
    (regsAfterStep cfg r).shared = (regsAfterStep cfg r').shared := by
  obtain ⟨hlfsr, hnoise, hacc⟩ := Regs.shared_eq_iff.1 h
  refine Regs.shared_eq_iff.2 ⟨?_, ?_, ?_⟩
  · rw [regsAfterStep_lfsr, regsAfterStep_lfsr, ticksOf_congr hacc, hlfsr, hnoise]
  · rw [regsAfterStep_noiseCounter, regsAfterStep_noiseCounter, ticksOf_congr hacc, hnoise]
  · rw [regsAfterStep_tickAcc, regsAfterStep_tickAcc, nextTickCount, nextTickCount, hacc]

theorem regsAfterStep_iterate_shared_congr (cfg : Cfg) (k : Nat) {r r' : Regs} (h : r.shared = r'.shared) :
    ((regsAfterStep cfg)^[k] r).shared = ((regsAfterStep cfg)^[k] r').shared := by
  induction k generalizing r r' with
  | zero => exact h
  | succ k ih => exact ih (regsAfterStep_shared_congr cfg h)

/-- The word of NEXT_SAMPLE makes one decimation step (44_sample_engine.md R151). -/
theorem step_present_nextSampleWord {s : State} (hs : s.Inv) :
    step (present (.command nextSampleWord) s) =
      .next (respond .ok (mix s.cfg (regsAfterStep s.cfg s.regs)) { s with regs := regsAfterStep s.cfg s.regs }) :=
  (step_of_decoded rfl decode_encode_nextSample).trans
    (execNextSample_of_inv (s := { s with response := none }) hs)

/-- A step on any other word leaves the shared registers (41_noise_generator.md R114). -/
theorem step_present_shared_of_ne {s t : State} {w : Word} (hw : w ≠ nextSampleWord)
    (h : step (present (.command w) s) = .next t) : t.regs.shared = s.regs.shared := by
  obtain heq | ⟨w', rest, i, hin, hd, hx⟩ := step_regs_of_not_rst h (by simp)
  · rw [heq, present_regs]
  · obtain ⟨rfl, rfl⟩ : w = w' ∧ s.inputs = rest := by simpa using hin
    have hi : i ≠ .nextSample := by
      rintro rfl
      obtain ⟨-, henc⟩ := acceptedWordIsItsEncoding w _ hd
      exact hw henc.symm
    obtain ⟨hlfsr, hnoise, hacc, -⟩ := exec_configuration_regs hi hx
    exact Regs.shared_eq_iff.2 ⟨hlfsr, hnoise, hacc⟩

/-- A command word completes; the invariant and the configuration stay, and the shared registers make one decimation step if the
word is that of NEXT_SAMPLE, and none otherwise. -/
theorem exists_step_present_command {s : State} (hs : s.Inv) (w : Word) :
    ∃ t, step (present (.command w) s) = .next t ∧ t.Inv ∧ t.cfg = s.cfg ∧
      t.regs.shared = ((regsAfterStep s.cfg)^[if w == nextSampleWord then 1 else 0] s.regs).shared := by
  obtain ⟨t, -, ht, -⟩ := everyWordGetsItsResponse (present (.command w) s) w s.inputs hs rfl
  refine ⟨t, ht, stepKeepsTheInvariant (present _ s) t hs ht, onlyRstChangesTheConfiguration _ t ht, ?_⟩
  by_cases hw : w = nextSampleWord
  · subst hw
    obtain rfl := Host.Outcome.next.inj ((step_present_nextSampleWord hs).symm.trans ht)
    rfl
  · rw [if_neg (by simpa using hw)]
    exact step_present_shared_of_ne hw ht

theorem runWords_cons_of_next {s t : State} {w : Word} (h : step (present (.command w) s) = .next t) (ws : List Word) :
    runWords (w :: ws) s = runWords ws t := by
  simp only [runWords, List.map_cons, runInputs, h]

/-- A run of command words completes, and the shared registers make one decimation step per word of NEXT_SAMPLE
(41_noise_generator.md R114, 43_rate_converter.md R145). -/
theorem exists_runWords {s : State} (hs : s.Inv) (ws : List Word) :
    ∃ t, runWords ws s = .next t ∧
      t.regs.shared = ((regsAfterStep s.cfg)^[ws.count nextSampleWord] s.regs).shared := by
  induction ws generalizing s with
  | nil => exact ⟨s, rfl, rfl⟩
  | cons w ws ih =>
    obtain ⟨t, ht, htinv, hcfg, hshared⟩ := exists_step_present_command hs w
    obtain ⟨u, hu, hushared⟩ := ih htinv
    refine ⟨u, (runWords_cons_of_next ht ws).trans hu, ?_⟩
    rw [hushared, hcfg, regsAfterStep_iterate_shared_congr _ _ hshared, ← Function.iterate_add_apply, List.count_cons]

/-- Settles O38: both runs make the same number of decimation steps from the same registers. -/
theorem noiseIgnoresConfigurationCommands : Obligations.NoiseIgnoresConfigurationCommands := by
  intro cfg ws ws' ha hcount
  obtain ⟨t, ht, htshared⟩ := exists_runWords (resetTo_inv ha) ws
  obtain ⟨u, hu, hushared⟩ := exists_runWords (resetTo_inv ha) ws'
  refine ⟨t, u, ht, hu, Regs.shared_eq_iff.1 ?_⟩
  rw [htshared, hushared, hcount]

end Sys2Proof.Machine
end

section
/-! PROOFS. The mixer and quantizer (42_mixer_quantizer.md): the gate's tables (R126 to R128), the range of the sample (R130 to
R133, R136), and the samples of muted channels (R134, R137). -/

namespace Sys2Proof.Machine
open Sys2Proof.Claims

/-! ### What one channel adds -/

/-- A channel of mode none adds nothing, whatever its volume (42_mixer_quantizer.md R128). -/
theorem channelLevel_of_mode_zero {cfg : Cfg} {r : Regs} {i : ChannelId} (h : (r.channel i).mode = 0) :
    channelLevel cfg r i = 0 := by
  simp [channelLevel, gateTable, h]

/-- Settles O39: the tables were compared row by row, and a channel of mode none is silent in them. -/
theorem gateFollowsItsTables : Obligations.GateFollowsItsTables :=
  ⟨gate_eq_gateTable, fun cfg r i h => (contribution_eq_channelLevel cfg r i).trans (channelLevel_of_mode_zero h)⟩

/-- The gate passes the channel's level or nothing (42_mixer_quantizer.md R129). -/
theorem channelLevel_eq_zero_or (cfg : Cfg) (r : Regs) (i : ChannelId) :
    channelLevel cfg r i = 0 ∨ channelLevel cfg r i = levelOf cfg (r.channel i).volume :=
  (ite_eq_or_eq ..).symm

theorem levelOf_zero {cfg : Cfg} (ha : Admissible cfg) : levelOf cfg 0#4 = 0 := by
  obtain ⟨-, -, -, hzero, -⟩ := ha
  exact hzero

/-- The top of the amplitude table is its largest entry (00_scope.md R9). -/
theorem levelOf_le_top {cfg : Cfg} (ha : Admissible cfg) (v : BitVec 4) : levelOf cfg v ≤ levelOf cfg 15#4 := by
  obtain ⟨-, -, -, -, htop, -⟩ := ha
  exact htop v.toFin

theorem channelLevel_le_top {cfg : Cfg} (ha : Admissible cfg) (r : Regs) (i : ChannelId) :
    channelLevel cfg r i ≤ levelOf cfg 15#4 := by
  rcases channelLevel_eq_zero_or cfg r i with h | h <;> rw [h]
  · exact Nat.zero_le _
  · exact levelOf_le_top ha _

/-- A channel that cannot contribute: its volume is 0 or its mode is none (42_mixer_quantizer.md R134). -/
def Channel.Muted (c : Channel) : Prop := c.volume = 0 ∨ c.mode = 0

theorem channelLevel_of_muted {cfg : Cfg} (ha : Admissible cfg) {r : Regs} {i : ChannelId} (h : (r.channel i).Muted) :
    channelLevel cfg r i = 0 := by
  rcases h with hvol | hmode
  · rcases channelLevel_eq_zero_or cfg r i with hsilent | hlevel
    · exact hsilent
    · rw [hlevel, hvol]
      exact levelOf_zero ha
  · exact channelLevel_of_mode_zero hmode

/-! ### The sum -/

theorem levelSum_eq_sum (cfg : Cfg) (r : Regs) : levelSum cfg r = ∑ i, channelLevel cfg r i :=
  (Fin.sum_univ_three _).symm

/-- The sum is at most `MAX_SUM` (42_mixer_quantizer.md R130). -/
theorem levelSum_le_maxSum {cfg : Cfg} (ha : Admissible cfg) (r : Regs) : levelSum cfg r ≤ maxSum cfg := by
  rw [levelSum_eq_sum]
  exact Finset.sum_le_card_nsmul _ _ _ fun i _ => channelLevel_le_top ha r i

theorem levelSum_of_all_muted {cfg : Cfg} (ha : Admissible cfg) {r : Regs} (h : ∀ i, (r.channel i).Muted) :
    levelSum cfg r = 0 := by
  rw [levelSum_eq_sum]
  exact Finset.sum_eq_zero fun i _ => channelLevel_of_muted ha (h i)

theorem levelSum_of_others_muted {cfg : Cfg} (ha : Admissible cfg) {r : Regs} {i : ChannelId}
    (h : ∀ j, j ≠ i → (r.channel j).Muted) : levelSum cfg r = channelLevel cfg r i := by
  rw [levelSum_eq_sum]
  exact Fintype.sum_eq_single i fun j hj => channelLevel_of_muted ha (h j hj)

/-! ### The sample -/

/-- Nothing in the sum gives the silence value (42_mixer_quantizer.md R134). -/
theorem sampleOf_zero (cfg : Cfg) : sampleOf cfg 0 = silence cfg := by
  simp [sampleOf, silence]

/-- `|2*sum - MAX_SUM| ≤ MAX_SUM`, and `SCALE` is chosen so that `SCALE*MAX_SUM` fits (42_mixer_quantizer.md R132, R136). -/
theorem abs_sampleOf_le {cfg : Cfg} {sum : Nat} (h : sum ≤ maxSum cfg) :
    |sampleOf cfg sum| ≤ 32767 := by
  have hcentred : |(2 * sum - maxSum cfg : Int)| ≤ maxSum cfg := abs_le.2 ⟨by omega, by omega⟩
  have hfit : scale cfg * maxSum cfg ≤ 32767 := Nat.div_mul_le_self ..
  calc |sampleOf cfg sum| = scale cfg * |(2 * sum - maxSum cfg : Int)| := by rw [sampleOf, abs_mul, Nat.abs_cast]
    _ ≤ scale cfg * maxSum cfg := Int.mul_le_mul_of_nonneg_left hcentred (Int.natCast_nonneg _)
    _ ≤ 32767 := by exact_mod_cast hfit

/-- The port carries the integer sample exactly (42_mixer_quantizer.md R133, R136). -/
theorem mix_toInt {cfg : Cfg} (ha : Admissible cfg) (r : Regs) : (mix cfg r).toInt = sampleOf cfg (levelSum cfg r) := by
  obtain ⟨hlow, hhigh⟩ := abs_le.1 (abs_sampleOf_le (levelSum_le_maxSum ha r))
  rw [mix_eq_sampleOf]
  exact BitVec.toInt_ofInt_eq_self (by decide) (by omega) (by omega)

/-- Settles O40: the sum is in range, so the sample is, so 16 bits carry it. -/
theorem sampleNeverWraps : Obligations.SampleNeverWraps := by
  intro cfg r ha
  have hsum := levelSum_le_maxSum ha r
  exact ⟨hsum, mix_toInt ha r, abs_le.1 (abs_sampleOf_le hsum)⟩

/-! ### NEXT_SAMPLE with muted channels -/

/-- NEXT_SAMPLE responds with the sample of the sum its decimation step leaves (44_sample_engine.md R151). -/
theorem exists_exec_nextSample_sample {s : State} (hs : s.Inv) :
    ∃ t x, exec .nextSample s = .next t ∧ t.response = some ⟨.ok, x⟩ ∧
      x.toInt = sampleOf s.cfg (levelSum s.cfg (regsAfterStep s.cfg s.regs)) :=
  ⟨_, _, execNextSample_of_inv hs, rfl, mix_toInt hs.1 _⟩

@[simp] theorem channelAfter_volume (n : Nat) (c : Channel) : (channelAfter n c).volume = c.volume := rfl

/-- An advance leaves volume and mode, so a muted channel stays muted (40_tone_channel.md R103). -/
theorem muted_regsAfterStep {cfg : Cfg} {r : Regs} {i : ChannelId} (h : (r.channel i).Muted) :
    ((regsAfterStep cfg r).channel i).Muted := by
  rw [regsAfterStep_channel]
  exact h

/-- Settles O41: after the decimation step every channel is still muted, so the sum is 0. -/
theorem mutedChannelsGiveSilence : Obligations.MutedChannelsGiveSilence := by
  intro s hs hmuted
  obtain ⟨t, x, ht, hresp, hx⟩ := exists_exec_nextSample_sample hs
  have hsum := levelSum_of_all_muted hs.1 fun i => muted_regsAfterStep (cfg := s.cfg) (hmuted i)
  exact ⟨t, x, ht, hresp, by rw [hx, hsum, sampleOf_zero]⟩

/-- Settles O42: the sum is what channel `i` adds, which is nothing or the level of its volume. -/
theorem oneChannelIsBilevel : Obligations.OneChannelIsBilevel := by
  intro s i hs hmuted
  obtain ⟨t, x, ht, hresp, hx⟩ := exists_exec_nextSample_sample hs
  have hsum := levelSum_of_others_muted hs.1 fun j hj => muted_regsAfterStep (cfg := s.cfg) (hmuted j hj)
  refine ⟨t, x, ht, hresp, ?_⟩
  rw [hx, hsum]
  rcases channelLevel_eq_zero_or s.cfg (regsAfterStep s.cfg s.regs) i with h | h <;> rw [h]
  · exact .inl (sampleOf_zero _)
  · exact .inr (by rw [regsAfterStep_channel, channelAfter_volume])

end Sys2Proof.Machine
end

section
/-! PROOFS. The rate converter (43_rate_converter.md): MIN_PERIOD (R143), the tick count of one sample (R141, R142), the totals
over many samples and the accumulator along a run (R144, R145), and a sample of no tick (R141). -/

namespace Sys2Proof.Machine
open Sys2Proof.Claims

/-! ### MIN_PERIOD -/

/-- Settles O24: MIN_PERIOD is a ceiling, and the ceiling of a positive quotient is not at most 0. -/
theorem minPeriodIsTheCeiling : Obligations.MinPeriodIsTheCeiling :=
  fun _ hc hs => ⟨Nat.lt_of_not_le (mt (minPeriod_le_iff hs).1 (by omega)), fun _ => minPeriod_le_iff hs⟩

/-! ### The tick count of one sample -/

/-- From an accumulator below SAMPLE_RATE the tick count is `Q`, or `Q + 1` where the remainders reach SAMPLE_RATE
(43_rate_converter.md R142). -/
theorem ticksOf_of_tickAcc_lt {cfg : Cfg} {r : Regs} (h : r.tickAcc.toNat < cfg.sampleRate) :
    ticksOf cfg r = cfg.clockRate / cfg.sampleRate +
      (if cfg.sampleRate ≤ r.tickAcc.toNat + cfg.clockRate % cfg.sampleRate then 1 else 0) := by
  rw [ticksOf, Nat.add_div (Nat.zero_lt_of_lt h), Nat.div_eq_of_lt h, Nat.mod_eq_of_lt h, Nat.zero_add]

/-- Settles O25: the tick count is the quotient and the new accumulator the remainder of one division by SAMPLE_RATE. -/
theorem tickCountIsQuotientOrOneMore : Obligations.TickCountIsQuotientOrOneMore := by
  intro cfg r ha hacc
  have hlt := Nat.lt_of_le_pred (Nat.zero_lt_of_lt (accReset_lt ha)) hacc
  rw [nextTickCount_tickAcc ha]
  exact ⟨Nat.div_add_mod' .., Nat.le_sub_one_of_lt (Nat.mod_lt _ (Nat.zero_lt_of_lt hlt)), ticksOf_of_tickAcc_lt hlt,
    nextTickCount_channel cfg r, nextTickCount_lfsr cfg r, nextTickCount_noiseCounter cfg r⟩

/-! ### The totals over many samples -/

/-- Dividing in two steps, with the remainder carried, divides the sum: no fraction of a tick is lost
(43_rate_converter.md R144). -/
theorem div_add_mod_add_div {d : Nat} (hd : 0 < d) (a b : Nat) : a / d + (a % d + b) / d = (a + b) / d := by
  rw [← Nat.mul_add_div hd, ← Nat.add_assoc, Nat.div_add_mod]

/-- From an accumulator below SAMPLE_RATE the first `n` tick counts sum to the floor of what the accumulator and `n` times
CLOCK_RATE hold. -/
theorem tickCounts_sum {cfg : Cfg} (ha : Admissible cfg) (n : Nat) {r : Regs} (h : r.tickAcc.toNat < cfg.sampleRate) :
    (tickCounts cfg n r).sum = (r.tickAcc.toNat + n * cfg.clockRate) / cfg.sampleRate := by
  have hpos := Nat.zero_lt_of_lt h
  induction n generalizing r with
  | zero => simp [tickCounts, Nat.div_eq_of_lt h]
  | succ n ih =>
    have hcarry := nextTickCount_tickAcc ha r
    rw [tickCounts, List.sum_cons, ih (hcarry ▸ Nat.mod_lt _ hpos), hcarry, nextTickCount, div_add_mod_add_div hpos,
      Nat.add_assoc, Nat.succ_mul, Nat.add_comm cfg.clockRate]

/-- Settles O26: RESET loads an accumulator below SAMPLE_RATE. -/
theorem tickTotalsNeverDrift : Obligations.TickTotalsNeverDrift := by
  intro cfg n ha
  have hreset := resetRegs_tickAcc_toNat ha
  have hsum := tickCounts_sum ha n (hreset ▸ accReset_lt ha)
  rw [hreset] at hsum
  exact ⟨hsum, fun hzero => by rw [hsum, hzero, Nat.zero_add]⟩

/-! ### The accumulator along a run -/

/-- After `k` decimation steps the accumulator is what it was plus `k` times CLOCK_RATE, modulo SAMPLE_RATE
(43_rate_converter.md R144). -/
theorem regsAfterStep_iterate_tickAcc {cfg : Cfg} (ha : Admissible cfg) (k : Nat) {r : Regs}
    (h : r.tickAcc.toNat < cfg.sampleRate) :
    ((regsAfterStep cfg)^[k] r).tickAcc.toNat = (r.tickAcc.toNat + k * cfg.clockRate) % cfg.sampleRate := by
  induction k with
  | zero => simp [Nat.mod_eq_of_lt h]
  | succ k ih =>
    rw [Function.iterate_succ_apply', regsAfterStep_tickAcc, nextTickCount_tickAcc ha, ih, Nat.mod_add_mod,
      Nat.add_assoc, Nat.succ_mul]

/-- Settles O27: a run makes one decimation step of the shared registers per word of NEXT_SAMPLE. -/
theorem accumulatorDependsOnSampleCountAlone : Obligations.AccumulatorDependsOnSampleCountAlone := by
  intro cfg ws ha
  obtain ⟨t, ht, hshared⟩ := exists_runWords (resetTo_inv ha) ws
  obtain ⟨-, -, hacc⟩ := Regs.shared_eq_iff.1 hshared
  have hreset := resetRegs_tickAcc_toNat ha
  refine ⟨t, ht, ?_⟩
  rw [hacc, resetTo_cfg, resetTo_regs, regsAfterStep_iterate_tickAcc ha _ (hreset ▸ accReset_lt ha), hreset]

/-! ### A sample of no tick -/

/-- With no tick to advance by, a decimation step only carries the accumulator on (44_sample_engine.md R151). -/
theorem regsAfterStep_of_ticksOf_eq_zero {cfg : Cfg} {r : Regs} (h : ticksOf cfg r = 0) :
    regsAfterStep cfg r = (nextTickCount cfg r).2 := by
  have hnoise : noiseAfter cfg (ticksOf cfg r) r = r := by rw [h, noiseAfter_zero]
  have hlfsr := congrArg Regs.lfsr hnoise
  have hcounter := congrArg Regs.noiseCounter hnoise
  refine Regs.ext_channel (fun i => ?_) hlfsr hcounter rfl
  rw [regsAfterStep_channel, h, channelAfter_zero, nextTickCount_channel]

/-- Where CLOCK_RATE does not fill the accumulator, the tick count is 0 and the accumulator takes the whole sum
(43_rate_converter.md R141). -/
theorem nextTickCount_of_lt {cfg : Cfg} {r : Regs} (h : r.tickAcc.toNat + cfg.clockRate < cfg.sampleRate) :
    nextTickCount cfg r = (0, { r with tickAcc := BitVec.ofNat 32 (r.tickAcc.toNat + cfg.clockRate) }) := by
  rw [nextTickCount, Nat.div_eq_of_lt h, Nat.mod_eq_of_lt h]

/-- The mixer does not read the accumulator (42_mixer_quantizer.md R125). -/
@[simp] theorem mix_of_tickAcc (cfg : Cfg) (r : Regs) (x : BitVec 32) :
    mix cfg { r with tickAcc := x } = mix cfg r := rfl

/-- Settles O48: the decimation step has no tick, so it moves the accumulator alone, and the mixer does not read that. -/
theorem zeroTickSampleMovesOnlyTheAccumulator : Obligations.ZeroTickSampleMovesOnlyTheAccumulator := by
  intro s hs hlt
  have hcount := nextTickCount_of_lt hlt
  have hstep := regsAfterStep_of_ticksOf_eq_zero (congrArg Prod.fst hcount)
  rw [exec_nextSample, execNextSample_of_inv hs, hstep, hcount, mix_of_tickAcc]
  rfl

end Sys2Proof.Machine
end

section
/-! PROOFS. The sample engine (44_sample_engine.md): what a step does with each input (R150, R154, R155), the decimation step and
the order of its advances (R151, R152), and the machine against the step function of R150 in closed form, on one word and on a
run from RESET (R159). -/

namespace Sys2Proof.Machine
open Sys2Proof.Claims

/-! ### What a step does with its input -/

/-- Settles O10: the dispatch of a decoded word. -/
theorem stepRunsTheDecodedCommand : Obligations.StepRunsTheDecodedCommand :=
  fun _ _ _ _ => step_of_decoded

/-- Settles O3: `rst` answers the reset state of the configuration with the new rates (O1), if that is admissible. -/
theorem rstMakesANewInstance : Obligations.RstMakesANewInstance := by
  intro s c r rest hin
  rw [step_of_rst hin]
  refine ⟨fun ha => ⟨_, resetInstance_eq_next.2 ⟨ha, rfl⟩, rfl, ?_, rfl, rfl⟩, fun hn => if_neg hn⟩
  exact (resetLoadsTheResetValues _ ha).1

/-- Settles O54, input by input: an idle step and every word complete under the invariant (O14), and so does `rst` to admissible
rates. -/
theorem nothingStopsTheBlock : Obligations.NothingStopsTheBlock := by
  intro s hs hrst
  rcases hin : s.inputs with _ | ⟨w | ⟨c, r⟩, rest⟩
  · rw [step_of_no_input hin]
    exact ⟨_, execIdle_eq_next.2 ⟨hs.1, rfl⟩⟩
  · obtain ⟨t, -, ht, -⟩ := everyWordGetsItsResponse s w rest hs hin
    exact ⟨t, ht⟩
  · rw [step_of_rst hin]
    exact ⟨_, resetInstance_eq_next.2 ⟨hrst c r rest hin, rfl⟩⟩

/-- Settles O16: a step that is not `rst` changes registers by a command alone, a configuration command keeps the phase and the
shared registers (O7), and the one word of NEXT_SAMPLE is its encoding (O21). -/
theorem onlyNextSampleAdvances : Obligations.OnlyNextSampleAdvances := by
  intro s t h hchanged
  by_cases hrst : ∃ c r rest, s.inputs = .reset c r :: rest
  · obtain ⟨c, r, rest, hin⟩ := hrst
    exact ⟨rest, .inr ⟨c, r, hin⟩⟩
  obtain heq | ⟨w, rest, i, hin, hd, hx⟩ := step_regs_of_not_rst h (by simpa using hrst)
  · simp [heq] at hchanged
  by_cases hi : i = .nextSample
  · subst hi
    obtain ⟨-, rfl⟩ := acceptedWordIsItsEncoding w _ hd
    exact ⟨rest, .inl hin⟩
  · obtain ⟨hphase, hlfsr, hnoise, hacc, -⟩ := configurationKeepsThePhase i _ t hi hx
    simp [hphase, hlfsr, hnoise, hacc] at hchanged

/-! ### The order of the advances -/

/-- Writing back what a channel holds changes nothing. -/
@[simp] theorem Regs.setChannel_channel (r : Regs) (i : ChannelId) : r.setChannel i (r.channel i) = r := by
  simp [Regs.setChannel, Regs.channel]

/-- What commutes with every write to channel `i` commutes with the advance of channel `i`, stops included: it leaves the channel
alone, so the advance is the same before and after it. -/
theorem bind_toneAdvance_comm {g : Regs → Option Regs} {r : Regs} {i : ChannelId}
    (hg : ∀ c, g (r.setChannel i c) = (g r).map (·.setChannel i c)) (n : Nat) :
    (g r).bind (toneAdvance i n) = (toneAdvance i n r).bind g := by
  have hkeep : ∀ q, g r = some q → q.channel i = r.channel i := by
    intro q hq
    have hself := hg (r.channel i)
    rw [Regs.setChannel_channel, hq, Option.map_some, Option.some.injEq] at hself
    rw [hself, Regs.channel_setChannel_self]
  cases hq : g r with
  | none => cases hc : advanceChannel n (r.channel i) <;> simp [toneAdvance, hc, hg, hq]
  | some q => cases hc : advanceChannel n (r.channel i) <;> simp [toneAdvance, hc, hg, hq, hkeep q hq]

/-- Settles O49: neither the noise advance nor the advance of another channel touches or reads channel `i`. -/
theorem advancesCommute : Obligations.AdvancesCommute :=
  fun cfg n r => ⟨fun i => bind_toneAdvance_comm (noiseAdvance_setChannel cfg n r i) n,
    fun _ _ hij => bind_toneAdvance_comm (toneAdvance_setChannel hij n r) n⟩

/-! ### NEXT_SAMPLE -/

theorem encode_nextSample : encode .nextSample = nextSampleWord := rfl

/-- A word of NEXT_SAMPLE's opcode with anything in the other fields is BAD_ENCODING (30_encoding.md R74, step 3). -/
theorem badEncoding_of_opOf_eq_four {w : Word} (hop : opOf w = 4) (hw : w ≠ nextSampleWord) : BadEncoding w :=
  by_contra fun hbad => hw (encode_nextSample_of_opOf hbad hop).symm

/-- Settles O44: the decimation step has its closed form under the invariant, and the mix is the sample of its sum. -/
theorem nextSampleAdvancesAndMixes : Obligations.NextSampleAdvancesAndMixes := by
  refine ⟨encode_nextSample, fun s hs => ⟨?_, fun w hop hw => ?_⟩⟩
  · rw [exec_nextSample, execNextSample_of_inv hs, mix_eq_sampleOf]
    rfl
  · exact step_present_rejected hs.1 (decode_of_badEncoding (badEncoding_of_opOf_eq_four hop hw))

/-! ### The step function of R150 in closed form -/

/-- The fields by arithmetic of a word the encoder lays out. -/
theorem fieldsOf_commandWord (op : BitVec 4) (ch : ChannelField) (v : Value) :
    opOf (commandWord op ch v) = op.toNat ∧ rz1Of (commandWord op ch v) = 0 ∧ chOf (commandWord op ch v) = ch.toNat ∧
      rz2Of (commandWord op ch v) = 0 ∧ valueOf (commandWord op ch v) = v.toNat := by
  simp [opOf_eq, rz1Of_eq, chOf_eq, rz2Of_eq, valueOf_eq, fields_commandWord]

theorem storedPeriod_commandWord (cfg : Cfg) (op : BitVec 4) (ch : ChannelField) (v : Value) :
    storedPeriod cfg (commandWord op ch v) = clampPeriod cfg ch v := by
  simp only [storedPeriod, clampPeriod, fieldsOf_commandWord, fields_commandWord]

/-- Why the decoder rejects a word: its encoding, its channel or its flags (30_encoding.md R74). -/
theorem rejected_cases {w : Word} {cause : Cause} (h : decode w = .error cause) :
    BadEncoding w ∨ (opOf w ≠ 4 ∧ chOf w = 3) ∨ (opOf w = 3 ∧ 3 < valueOf w) := by
  refine or_iff_not_imp_left.2 fun hbad => ?_
  by_cases hch : chOf w = 3
  · refine .inl ⟨fun hop => ?_, hch⟩
    simp [decode_of_opOf_eq_four hbad hop] at h
  obtain hop | hop | hop | hop := opOf_of_not_badEncoding hbad
  · simp [decode_of_opOf_eq_one hbad hop, hch] at h
  · simp [decode_of_opOf_eq_two hbad hop, hch] at h
  · rw [decode_of_opOf_eq_three hbad hop, if_neg hch] at h
    exact .inr ⟨hop, by_contra fun hv => by simp [hv] at h⟩
  · simp [decode_of_opOf_eq_four hbad hop] at h

/-- On a word the decoder rejects the closed form changes nothing and answers `(CONFIG_ERROR, 0)` (60_exceptions.md R166). -/
theorem referenceStep_of_rejected {w : Word} {cause : Cause} (h : decode w = .error cause) (cfg : Cfg) (r : Regs) :
    referenceStep cfg r w = (r, ⟨.configError, 0⟩) := by
  have hcases := rejected_cases h
  unfold BadEncoding at hcases
  unfold referenceStep
  split_ifs
  · rfl
  · rfl
  · omega
  · omega
  · omega
  · omega
  · rfl
  · rfl

/-- On the word of NEXT_SAMPLE the closed form is that of a decimation step (44_sample_engine.md R151). -/
theorem referenceStep_nextSampleWord (cfg : Cfg) (r : Regs) :
    referenceStep cfg r nextSampleWord =
      (regsAfterStep cfg r, ⟨.ok, BitVec.ofInt 16 (sampleOf cfg (levelSum cfg (regsAfterStep cfg r)))⟩) := rfl

/-- On the word of an accepted configuration command the closed form writes that command's register of its channel
(40_tone_channel.md R90, R91, R92). -/
theorem referenceStep_encode {i : Instr} {reg : Nat} {ch : ChannelField} {k : ChannelId} (hw : i.WellFormed)
    (ht : target i = some (reg, ch)) (hk : ch.toNat = k.val) (cfg : Cfg) (r : Regs) :
    referenceStep cfg r (encode i) = (r.setChannel k (configure cfg i (r.channel k)), ⟨.ok, 0⟩) := by
  cases i with
  | nextSample => cases ht
  | setPeriod ch v =>
    cases ht
    simp [referenceStep, encode, fieldsOf_commandWord, storedPeriod_commandWord, configure, hk]
  | setVolume ch v =>
    cases ht
    simp [referenceStep, encode, fieldsOf_commandWord, configure, clampVolume, volMax, hk]
  | setMode ch v =>
    cases ht
    obtain ⟨-, hv⟩ := wellFormed_setMode.1 hw
    simp [referenceStep, encode, fieldsOf_commandWord, configure, hk, hv, BitVec.setWidth_eq_extractLsb']

/-- Settles O55, by what the decoder makes of the word: a rejected one, the word of NEXT_SAMPLE, or that of an accepted
configuration command (O21). -/
theorem machineRefinesTheClosedForm : Obligations.MachineRefinesTheClosedForm := by
  intro s w hs
  cases hd : decode w with
  | error cause =>
    rw [referenceStep_of_rejected hd]
    exact step_present_rejected hs.1 hd
  | ok i =>
    obtain ⟨hwf, rfl⟩ := acceptedWordIsItsEncoding w i hd
    by_cases hi : i = .nextSample
    · subst hi
      rw [encode_nextSample, step_present_nextSampleWord hs, referenceStep_nextSampleWord, mix_eq_sampleOf]
      rfl
    · obtain ⟨reg, ch, ht, k, hk⟩ := exists_channel_of_wellFormed hwf hi
      rw [step_of_decoded rfl hd, referenceStep_encode hwf ht hk]
      exact exec_of_wellFormed (s := { s with response := none }) hwf ht hk hs.1

/-! ### Runs -/

/-- The run of a machine with the invariant is the closed-form run, word by word; the port shows the last response given. -/
theorem respondingRun_of_inv (ws : List Word) {s : State} (hs : s.Inv) :
    respondingRun ws s =
      some ({ s with
          regs := (referenceRun s.cfg s.regs ws).1
          response := (referenceRun s.cfg s.regs ws).2.getLast?.or s.response },
        (referenceRun s.cfg s.regs ws).2) := by
  induction ws generalizing s with
  | nil => rfl
  | cons w ws ih =>
    have hstep := machineRefinesTheClosedForm s w hs
    have hrest := ih (stepKeepsTheInvariant (present (.command w) s) _ hs hstep)
    simp [respondingRun, hstep, hrest, referenceRun, List.getLast?_cons]

/-- Settles O56: RESET has the invariant, and the port shows nothing then. -/
theorem runsAreReproducible : Obligations.RunsAreReproducible := by
  intro cfg ws ha
  simpa using respondingRun_of_inv ws (resetTo_inv ha)

end Sys2Proof.Machine
end

section
/-! PROOFS. The exceptions (60_exceptions.md): an idle step (R179), a rejected word (R166), and a stream of words against its
accepted words alone (R166 (4), 70_reset_and_hazards.md R195). -/

namespace Sys2Proof.Machine

/-! ### One step -/

/-- Settles O12: the port is cleared, and the idle step leaves the rest. -/
theorem noCommandFreezesTheBlock : Obligations.NoCommandFreezesTheBlock :=
  fun _ ha hin => (step_of_no_input hin).trans (whenAdmissible_pos ha _)

/-- Taking an input clears the response port, so what was on it is lost (20_memory.md R57). -/
theorem takeInput_with_response (s : State) (r : Option Response) :
    takeInput { s with response := r } = takeInput s := rfl

/-- A step does not read the response the step before it gave. -/
theorem step_with_response (s : State) (r : Option Response) : step { s with response := r } = step s := by
  simp only [step, takeInput_with_response]

/-- Settles O11: the state left differs from the state without the word in its response alone, and the next step does not read
that. -/
theorem rejectedWordRaisesConfigError : Obligations.RejectedWordRaisesConfigError := by
  intro s w rest cause ha hin hd
  refine ⟨raiseConfigError cause { s with inputs := rest }, ?_, rfl, rfl, rfl, rfl, step_with_response _ _⟩
  exact (step_of_rejected hin hd).trans (whenAdmissible_pos ha _)

/-! ### A stream of words -/

theorem filter_isOk_cons_of_rejected {w : Word} {cause : Cause} (hd : decode w = .error cause) (ws : List Word) :
    (w :: ws).filter (fun w => (decode w).isOk) = ws.filter fun w => (decode w).isOk :=
  List.filter_cons_of_neg (by simp [hd, Except.isOk, Except.toBool])

theorem filter_isOk_cons_of_accepted {w : Word} {i : Instr} (hd : decode w = .ok i) (ws : List Word) :
    (w :: ws).filter (fun w => (decode w).isOk) = w :: ws.filter fun w => (decode w).isOk :=
  List.filter_cons_of_pos (by simp [hd, Except.isOk, Except.toBool])

/-- The run of a stream and the run of its accepted words, from states that differ in their responses alone, end in states that
differ in their responses alone. A rejected word changes the response of the first run and is not in the second; an accepted word
brings both runs to one state. -/
theorem exists_runWords_filter_isOk (ws : List Word) {s : State} (hs : s.Inv) (r : Option Response) :
    ∃ t r', runWords ws s = .next t ∧
      runWords (ws.filter fun w => (decode w).isOk) { s with response := r } = .next { t with response := r' } := by
  induction ws generalizing s r with
  | nil => exact ⟨s, r, rfl, rfl⟩
  | cons w ws ih =>
    cases hd : decode w with
    | error cause =>
      have hstep : step (present (.command w) s) = .next (raiseConfigError cause s) := step_present_rejected hs.1 hd
      rw [runWords_cons_of_next hstep, filter_isOk_cons_of_rejected hd]
      exact ih (s := raiseConfigError cause s) hs r
    | ok i =>
      obtain ⟨t, ht, htinv, -⟩ := exists_step_present_command hs w
      have ht' : step (present (.command w) { s with response := r }) = .next t :=
        (step_with_response (present (.command w) s) r).trans ht
      rw [runWords_cons_of_next ht, filter_isOk_cons_of_accepted hd, runWords_cons_of_next ht']
      exact ih htinv t.response

/-- Settles O57: at the start the two runs do not differ at all. -/
theorem rejectedWordsCanBeErased : Obligations.RejectedWordsCanBeErased := by
  intro s ws hs
  obtain ⟨t, r, ht, hu⟩ := exists_runWords_filter_isOk ws hs s.response
  exact ⟨t, { t with response := r }, ht, hu, rfl, rfl, rfl⟩

end Sys2Proof.Machine
end

section
/-! PROOFS. The hazards of a host (70_reset_and_hazards.md): the order of configuration commands and the silence before them
(R188), the first sample after SET_PERIOD (R189), and the delay of a new period (R190). -/

namespace Sys2Proof.Machine
open Sys2Proof.Claims

/-! ### The order of configuration commands -/

/-- What a configuration command leaves in channel `k`: the channel as it was, unless the command is accepted and names `k`. -/
def configureChannel (cfg : Cfg) (i : Instr) (k : ChannelId) (c : Channel) : Channel :=
  if i.WellFormed ∧ (target i).map (·.2.toNat) = some k.val then configure cfg i c else c

/-- A configuration command completes, accepted or rejected, treats each channel by itself, and leaves everything shared. -/
theorem exists_exec_configuration {i : Instr} {s : State} (hi : i ≠ .nextSample) (ha : Admissible s.cfg) :
    ∃ t, exec i s = .next t ∧ t.cfg = s.cfg ∧ t.regs.shared = s.regs.shared ∧
      ∀ k, t.regs.channel k = configureChannel s.cfg i k (s.regs.channel k) := by
  cases hinv : i.invalidity with
  | some cause =>
    exact ⟨_, exec_of_invalidity hinv ha, rfl, rfl, fun k => by simp [configureChannel, Instr.WellFormed, hinv]⟩
  | none =>
    obtain ⟨reg, ch, ht, j, hj⟩ := exists_channel_of_wellFormed hinv hi
    refine ⟨_, exec_of_wellFormed hinv ht hj ha, rfl, rfl, fun k => ?_⟩
    by_cases hk : k = j
    · subst hk
      simp [configureChannel, Instr.WellFormed, hinv, ht, hj]
    · have hne : j.val ≠ k.val := fun h => hk (Fin.ext h.symm)
      simp [configureChannel, ht, hj, hk, hne]

/-- Writes to different registers of one channel commute. -/
theorem configure_comm {i j : Instr} (h : (target i).map (·.1) ≠ (target j).map (·.1)) (cfg : Cfg) (c : Channel) :
    configure cfg i (configure cfg j c) = configure cfg j (configure cfg i c) := by
  cases i with
  | nextSample => rfl
  | setPeriod =>
    cases j with
    | setPeriod => exact absurd rfl h
    | _ => rfl
  | setVolume =>
    cases j with
    | setVolume => exact absurd rfl h
    | _ => rfl
  | setMode =>
    cases j with
    | setMode => exact absurd rfl h
    | _ => rfl

/-- Two commands with different targets that name one channel write different registers of it. -/
theorem target_register_ne {i j : Instr} (h : target i ≠ target j) {k : Nat}
    (hi : (target i).map (·.2.toNat) = some k) (hj : (target j).map (·.2.toNat) = some k) :
    (target i).map (·.1) ≠ (target j).map (·.1) := by
  obtain ⟨⟨reg, ch⟩, hti, hch⟩ := Option.map_eq_some_iff.1 hi
  obtain ⟨⟨reg', ch'⟩, htj, hch'⟩ := Option.map_eq_some_iff.1 hj
  obtain rfl : ch = ch' := BitVec.eq_of_toNat_eq (hch.trans hch'.symm)
  simpa [hti, htj] using h

/-- Commands with different targets may come to channel `k` in either order. -/
theorem configureChannel_comm {i j : Instr} (h : target i ≠ target j) (cfg : Cfg) (k : ChannelId) (c : Channel) :
    configureChannel cfg i k (configureChannel cfg j k c) = configureChannel cfg j k (configureChannel cfg i k c) := by
  unfold configureChannel
  split_ifs with hi hj
  · obtain ⟨-, hik⟩ := hi
    obtain ⟨-, hjk⟩ := hj
    exact configure_comm (target_register_ne h hik hjk) cfg c
  · rfl
  · rfl
  · rfl

/-- Settles O9, channel by channel: neither command writes a shared register or changes the configuration. -/
theorem configurationCommandsCommute : Obligations.ConfigurationCommandsCommute := by
  intro i j s ha hi hj hne
  obtain ⟨a, hexec, hacfg, hashared, hach⟩ := exists_exec_configuration hi ha
  obtain ⟨b, hb, -, hbshared, hbch⟩ := exists_exec_configuration (s := a) hj (hacfg ▸ ha)
  obtain ⟨c, hc, hccfg, hcshared, hcch⟩ := exists_exec_configuration hj ha
  obtain ⟨d, hd, -, hdshared, hdch⟩ := exists_exec_configuration (s := c) hi (hccfg ▸ ha)
  have hshared : b.regs.shared = d.regs.shared := by rw [hbshared, hashared, hdshared, hcshared]
  obtain ⟨hlfsr, hnoise, hacc⟩ := Regs.shared_eq_iff.1 hshared
  refine ⟨a, b, c, d, hexec, hb, hc, hd, Regs.ext_channel (fun k => ?_) hlfsr hnoise hacc⟩
  rw [hbch, hach, hdch, hcch, hacfg, hccfg, configureChannel_comm hne]

/-! ### Silence before any configuration -/

/-- The word of NEXT_SAMPLE, with every channel muted, gives the silence value and leaves every channel muted (O41, O45). -/
theorem exists_step_nextSampleWord_silent {s : State} (hs : s.Inv) (hmuted : ∀ i, (s.regs.channel i).Muted) :
    ∃ t x, step (present (.command nextSampleWord) s) = .next t ∧ t.Inv ∧ t.cfg = s.cfg ∧
      (∀ i, (t.regs.channel i).Muted) ∧ t.response = some ⟨.ok, x⟩ ∧ x.toInt = silence s.cfg := by
  obtain ⟨t, x, ht, hresp, hx⟩ := mutedChannelsGiveSilence { s with response := none } hs hmuted
  obtain ⟨hcontrol, hcfg, -⟩ := nextSampleKeepsTheControlRegisters _ t ht
  refine ⟨t, x, (step_of_decoded rfl decode_encode_nextSample).trans ht,
    exec_keeps_inv (s := { s with response := none }) hs ht, hcfg, fun i => ?_, hresp, hx⟩
  obtain ⟨-, hvolume, hmode⟩ := hcontrol i
  rw [Channel.Muted, hvolume, hmode]
  exact hmuted i

/-- The last of any number of samples from muted channels is the silence value. -/
theorem exists_runWords_nextSample_silent (n : Nat) {s : State} (hs : s.Inv)
    (hmuted : ∀ i, (s.regs.channel i).Muted) :
    ∃ t x, runWords (List.replicate (n + 1) nextSampleWord) s = .next t ∧
      t.response = some ⟨.ok, x⟩ ∧ x.toInt = silence s.cfg := by
  induction n generalizing s with
  | zero =>
    obtain ⟨t, x, ht, -, -, -, hlast⟩ := exists_step_nextSampleWord_silent hs hmuted
    exact ⟨t, x, runWords_cons_of_next ht [], hlast⟩
  | succ n ih =>
    obtain ⟨t, -, ht, htinv, hcfg, htmuted, -⟩ := exists_step_nextSampleWord_silent hs hmuted
    obtain ⟨u, x, hu, hlast⟩ := ih htinv htmuted
    exact ⟨u, x, (runWords_cons_of_next ht _).trans hu, hcfg ▸ hlast⟩

/-- Settles O43: RESET leaves every channel with volume 0. -/
theorem silentUntilConfigured : Obligations.SilentUntilConfigured := by
  intro cfg n ha
  refine exists_runWords_nextSample_silent n (resetTo_inv ha) fun i => .inl ?_
  rw [resetTo_regs, resetRegs_channel]
  rfl

/-! ### The first toggle -/

/-- There is one underflow from the first tick past the counter to the last before the next reload. -/
theorem underflows_eq_one_iff {c n p : Nat} (hp : 0 < p) : underflows c n p = 1 ↔ c < n ∧ n ≤ c + p := by
  have h0 := underflows_le_iff (c := c) (n := n) (k := 0) hp
  have h1 := underflows_le_iff (c := c) (n := n) (k := 1) hp
  omega

/-- After `counter + 1` ticks the output bit has toggled once and the period has just been loaded (40_tone_channel.md R96). -/
theorem channelAfter_counter_succ {c : Channel} (hp : 0 < c.period) :
    (channelAfter (c.counter + 1) c).outputBit = !c.outputBit ∧
      (channelAfter (c.counter + 1) c).counter + 1 = c.period := by
  have hu : underflows c.counter (c.counter + 1) c.period = 1 := (underflows_eq_one_iff hp).2 (by omega)
  simp only [channelAfter, countAfter, hu, Nat.one_mul]
  exact ⟨rfl, by omega⟩

theorem channelAfter_outputBit_of_le {c : Channel} {n : Nat} (h : n ≤ c.counter) :
    (channelAfter n c).outputBit = c.outputBit := by
  simp [channelAfter, underflows_of_le h]

/-- Settles O33: SET_PERIOD leaves counter and output bit, and the ticks after it are the closed form with the new period. -/
theorem newPeriodWaitsForTheReload : Obligations.NewPeriodWaitsForTheReload := by
  intro s ch v i ha hch
  obtain ⟨hmin, -⟩ := clampPeriod_mem ha ch v
  have hp := (minPeriod_pos ha).trans hmin
  refine ⟨_, execSetPeriod_of_channel ha hch v, ?_⟩
  rw [respond_regs, modifyChannel_regs, Regs.channel_setChannel_self]
  refine ⟨fun m hm => ⟨_, times_advanceChannel_one m hp, ?_⟩, _, times_advanceChannel_one _ hp, ?_⟩
  · exact channelAfter_outputBit_of_le hm
  · exact channelAfter_counter_succ hp

/-- From counter 0, within two periods of ticks, the output bit has changed exactly after 1 to `period` of them
(70_reset_and_hazards.md R189). -/
theorem channelAfter_outputBit_of_counter_zero {c : Channel} {n : Nat} (hp : 0 < c.period) (hc : c.counter = 0)
    (hn : n ≤ 2 * c.period) :
    (channelAfter n c).outputBit = !c.outputBit ↔ 1 ≤ n ∧ n ≤ c.period := by
  have htwo := (underflows_le_iff (c := c.counter) (k := 2) hp).2 (hn.trans (Nat.le_add_left ..))
  have hone := underflows_eq_one_iff (c := c.counter) (n := n) hp
  have hodd : underflows c.counter n c.period % 2 = 1 ↔ 1 ≤ n ∧ n ≤ c.period := by omega
  simp only [channelAfter, hodd]
  split_ifs with h <;> simp [h]

/-- The tick count of the first sample after RESET, whatever was configured before it (43_rate_converter.md R141). -/
theorem ticksOf_setChannel_resetRegs {cfg : Cfg} (ha : Admissible cfg) (i : ChannelId) (c : Channel) :
    ticksOf cfg ((resetRegs cfg).setChannel i c) = (cfg.accReset + cfg.clockRate) / cfg.sampleRate := by
  rw [ticksOf, Regs.setChannel_tickAcc, resetRegs_tickAcc_toNat ha]

/-- The word of an accepted command, presented, is executed as that command. -/
theorem step_present_encode {i : Instr} (hw : i.WellFormed) (s : State) :
    step (present (.command (encode i)) s) = exec i { s with response := none } :=
  step_of_decoded rfl (decode_encode_of_wellFormed hw)

/-- Settles O47: a sample has at most two periods of ticks, and RESET starts the counter and the output bit at 0. -/
theorem firstSampleShowsTheFirstToggle : Obligations.FirstSampleShowsTheFirstToggle := by
  intro cfg ch v i ha hch
  have hexec := execSetPeriod_of_channel (s := State.resetTo cfg) ha hch v
  have hset := (step_present_encode (wellFormed_setPeriod.2 (channelField_ne_three hch)) (State.resetTo cfg)).trans hexec
  have hinv := exec_keeps_inv (i := .setPeriod ch v) (resetTo_inv ha) hexec
  refine ⟨_, (runWords_cons_of_next hset _).trans (runWords_cons_of_next (step_present_nextSampleWord hinv) []), ?_⟩
  obtain ⟨hmin, -⟩ := clampPeriod_mem ha ch v
  obtain ⟨-, -, -, hacc⟩ := Regs.inv_iff.1 (resetRegs_inv ha)
  have hticks := ticksOf_le_two_periods ha hacc hmin
  simp only [respond_regs, respond_cfg, modifyChannel_regs, modifyChannel_cfg, resetTo_regs, resetTo_cfg,
    regsAfterStep_channel, Regs.channel_setChannel_self, resetRegs_channel, ticksOf_setChannel_resetRegs ha]
  refine ⟨fun hv => clampPeriod_of_le hv ch, ?_⟩
  rw [ticksOf, resetRegs_tickAcc_toNat ha] at hticks
  exact channelAfter_outputBit_of_counter_zero (c := { resetChannel cfg with period := clampPeriod cfg ch v })
    ((minPeriod_pos ha).trans hmin) rfl hticks

end Sys2Proof.Machine
end
